-- ==== Sys2Proof/Word.lean ====
section
/-! DEFINITION. The word types of the machine (R8, R13): bytes, 16-bit words, 12-bit addresses, and the 4-bit
indices of registers and keys. -/

namespace Sys2Proof

/-- 8 bits: a general register, a timer or a memory byte (R13). -/
abbrev Byte := BitVec 8

/-- 16 bits: the program counter, the index register, a return-stack slot or an opcode word (R13, R49). -/
abbrev Word := BitVec 16

/-- The 12-bit address field `NNN` (R50). -/
abbrev Addr12 := BitVec 12

/-- The number of a general register, `V0` to `VF` (R15). A 4-bit field cannot name another one (R52). -/
abbrev Reg := Fin 16

/-- The number of a key of the pad, 0x0 to 0xF (R26). -/
abbrev Key := Fin 16

end Sys2Proof
end

