-- ==== Sys2Proof/Config.lean ====
section
/-! DEFINITION. What an implementation fixes: the sizes of R6, the configuration of R7, and the one free value of
the machine, the random byte of CXNN (R7, R31, R67). -/

namespace Sys2Proof

/-- The number of bytes of memory (R6, R34). -/
def memSize : Nat := 4096

/-- Where the loader puts a program image, and where execution starts (R6, R41). -/
def loadAddr : Nat := 0x200

/-- The longest image the loader takes: `4096 - 0x200` bytes (R6, R134). -/
def maxImage : Nat := 3584

/-- The configuration of the block (R7, R31). It is no state of the block and no step or host operation writes it:
`State.cfg` only carries it to the step (log entry 5). -/
structure Config where
  /-- `EXT_CLS`: word 0x00E0 clears the framebuffer; otherwise it is an unsupported opcode (R7, R100). -/
  extCls : Bool
  /-- `FONT_INSTALLED`: the host writes the standard font after reset (R7, R135). -/
  fontInstalled : Bool
  deriving DecidableEq, Repr

/-- The defaults of R7: both parameters are false. -/
def Config.default : Config := { extCls := false, fontInstalled := false }

/-- The random byte of the `n`-th draw: A FREE VALUE under no law (R7, R67, R89; log entry 4). It has no body, so
nothing can be proved of its values, and a statement about CXNN holds for every random source. -/
opaque Config.rand : Nat → Byte

end Sys2Proof
end

