-- ==== Sys2Proof/Syntax.lean ====
section
/-! DEFINITION. The instructions: one constructor for each row of spec/opcode_table.json, the catch-all row
included (R53). The pattern of each row stands beside its constructor. -/

namespace Sys2Proof

/-- An instruction (R53). Registers are numbers 0 to 15 (R52), `nn` an 8-bit immediate, `nnn` a 12-bit address and
`n` a count of rows (R50). -/
inductive Instr where
  /-- 00E0 `CLS`: clear the screen, a row that is present only under `EXT_CLS` (R100). -/
  | cls
  /-- 00EE `RET` (R71). -/
  | ret
  /-- 1NNN `JP addr` (R69). -/
  | jpAddr (nnn : Addr12)
  /-- 2NNN `CALL addr` (R70). -/
  | callAddr (nnn : Addr12)
  /-- 3XNN `SE Vx, byte` (R72). -/
  | seByte (x : Reg) (nn : Byte)
  /-- 4XNN `SNE Vx, byte` (R73). -/
  | sneByte (x : Reg) (nn : Byte)
  /-- 5XY0 `SE Vx, Vy` (R74). -/
  | seReg (x y : Reg)
  /-- 6XNN `LD Vx, byte` (R78). -/
  | ldByte (x : Reg) (nn : Byte)
  /-- 7XNN `ADD Vx, byte` (R79). -/
  | addByte (x : Reg) (nn : Byte)
  /-- 8XY0 `LD Vx, Vy` (R80). -/
  | ldReg (x y : Reg)
  /-- 8XY1 `OR Vx, Vy` (R81). -/
  | orReg (x y : Reg)
  /-- 8XY2 `AND Vx, Vy` (R82). -/
  | andReg (x y : Reg)
  /-- 8XY3 `XOR Vx, Vy` (R83). -/
  | xorReg (x y : Reg)
  /-- 8XY4 `ADD Vx, Vy` (R84). -/
  | addReg (x y : Reg)
  /-- 8XY5 `SUB Vx, Vy` (R85). -/
  | subReg (x y : Reg)
  /-- 8XY6 `SHR Vx` (R86). The Y field is decoded and ignored; it is kept so that a word is the encoding of exactly
  one instruction (log entry 11). -/
  | shrReg (x y : Reg)
  /-- 8XY7 `SUBN Vx, Vy` (R87). -/
  | subnReg (x y : Reg)
  /-- 8XYE `SHL Vx` (R88). The Y field is decoded and ignored (log entry 11). -/
  | shlReg (x y : Reg)
  /-- 9XY0 `SNE Vx, Vy` (R75). -/
  | sneReg (x y : Reg)
  /-- ANNN `LD I, addr` (R90). -/
  | ldIAddr (nnn : Addr12)
  /-- BNNN `JP V0, addr` (R76). -/
  | jpV0 (nnn : Addr12)
  /-- CXNN `RND Vx, byte` (R89). -/
  | rndByte (x : Reg) (nn : Byte)
  /-- DXYN `DRW Vx, Vy, nibble` (R96). -/
  | drw (x y : Reg) (n : Fin 16)
  /-- EX9E `SKP Vx` (R102). -/
  | skp (x : Reg)
  /-- EXA1 `SKNP Vx` (R103). -/
  | sknp (x : Reg)
  /-- FX07 `LD Vx, DT` (R105). -/
  | ldVxDt (x : Reg)
  /-- FX0A `LD Vx, K` (R104). -/
  | ldVxK (x : Reg)
  /-- FX15 `LD DT, Vx` (R106). -/
  | ldDtVx (x : Reg)
  /-- FX18 `LD ST, Vx` (R107). -/
  | ldStVx (x : Reg)
  /-- FX1E `ADD I, Vx` (R91). -/
  | addIVx (x : Reg)
  /-- FX29 `LD F, Vx` (R92). -/
  | ldFVx (x : Reg)
  /-- FX33 `LD B, Vx` (R93). -/
  | ldBVx (x : Reg)
  /-- FX55 `LD [I], Vx` (R94). -/
  | storeRegs (x : Reg)
  /-- FX65 `LD Vx, [I]` (R95). -/
  | loadRegs (x : Reg)
  /-- Any other word: recognized but unsupported (R108, R109). -/
  | unsupported (op : Word)
  deriving DecidableEq, Repr

end Sys2Proof
end

