-- ==== Sys2Proof/Decode.lean ====
section
/-! DEFINITION. The decoder (R49 to R55, R61), total on every 16-bit word and on any bytes; the encoder, written
from the same encodings of R53; and the opcode table of R53 as the spec lists it, mask and match row by row, from
which well-formedness is read. -/

namespace Sys2Proof

/-! ### Fields of an opcode word (R50) -/

/-- The nibble of `op` whose least significant bit is bit `lo`. -/
def nibble (op : Word) (lo : Nat) : Fin 16 :=
  ⟨(op.extractLsb' lo 4).toNat, (op.extractLsb' lo 4).isLt⟩

/-- `F = op[15:12]`: the instruction family (R50). -/
def family (op : Word) : Fin 16 := nibble op 12

/-- `X = op[11:8]`, in every instruction, CXNN included (R50, R51). -/
def fieldX (op : Word) : Reg := nibble op 8

/-- `Y = op[7:4]` (R50). -/
def fieldY (op : Word) : Reg := nibble op 4

/-- `N = op[3:0]` (R50). -/
def fieldN (op : Word) : Fin 16 := nibble op 0

/-- `NN = op[7:0]` (R50). -/
def fieldNN (op : Word) : Byte := op.extractLsb' 0 8

/-- `NNN = op[11:0]` (R50). -/
def fieldNNN (op : Word) : Addr12 := op.extractLsb' 0 12

/-! ### Decoding -/

/-- Top nibble 0: 00EE, or 00E0 under `EXT_CLS`, and nothing else (R54). -/
def decodeFamily0 (extCls : Bool) (op : Word) : Instr :=
  if op = 0x00EE then .ret
  else if extCls = true ∧ op = 0x00E0 then .cls
  else .unsupported op

/-- Top nibble 5: the low nibble must be 0 (R54). -/
def decodeFamily5 (op : Word) : Instr :=
  if fieldN op = 0 then .seReg (fieldX op) (fieldY op) else .unsupported op

/-- Top nibble 8: the low nibble must be one of 0 to 7 or E (R54). -/
def decodeFamily8 (op : Word) : Instr :=
  match (fieldN op).val with
  | 0x0 => .ldReg (fieldX op) (fieldY op)
  | 0x1 => .orReg (fieldX op) (fieldY op)
  | 0x2 => .andReg (fieldX op) (fieldY op)
  | 0x3 => .xorReg (fieldX op) (fieldY op)
  | 0x4 => .addReg (fieldX op) (fieldY op)
  | 0x5 => .subReg (fieldX op) (fieldY op)
  | 0x6 => .shrReg (fieldX op) (fieldY op)
  | 0x7 => .subnReg (fieldX op) (fieldY op)
  | 0xE => .shlReg (fieldX op) (fieldY op)
  | _ => .unsupported op

/-- Top nibble 9: the low nibble must be 0 (R54). -/
def decodeFamily9 (op : Word) : Instr :=
  if fieldN op = 0 then .sneReg (fieldX op) (fieldY op) else .unsupported op

/-- Top nibble E: the low byte must be 0x9E or 0xA1 (R54). -/
def decodeFamilyE (op : Word) : Instr :=
  match (fieldNN op).toNat with
  | 0x9E => .skp (fieldX op)
  | 0xA1 => .sknp (fieldX op)
  | _ => .unsupported op

/-- Top nibble F: the low byte must be one of the nine of R54. -/
def decodeFamilyF (op : Word) : Instr :=
  match (fieldNN op).toNat with
  | 0x07 => .ldVxDt (fieldX op)
  | 0x0A => .ldVxK (fieldX op)
  | 0x15 => .ldDtVx (fieldX op)
  | 0x18 => .ldStVx (fieldX op)
  | 0x1E => .addIVx (fieldX op)
  | 0x29 => .ldFVx (fieldX op)
  | 0x33 => .ldBVx (fieldX op)
  | 0x55 => .storeRegs (fieldX op)
  | 0x65 => .loadRegs (fieldX op)
  | _ => .unsupported op

/-- Decode (R61): a total function of the word and of `EXT_CLS` alone. The top nibble selects the family (R50);
every word that no row of R53 matches is the unsupported instruction (R108). -/
def decode (extCls : Bool) (op : Word) : Instr :=
  match (family op).val with
  | 0x0 => decodeFamily0 extCls op
  | 0x1 => .jpAddr (fieldNNN op)
  | 0x2 => .callAddr (fieldNNN op)
  | 0x3 => .seByte (fieldX op) (fieldNN op)
  | 0x4 => .sneByte (fieldX op) (fieldNN op)
  | 0x5 => decodeFamily5 op
  | 0x6 => .ldByte (fieldX op) (fieldNN op)
  | 0x7 => .addByte (fieldX op) (fieldNN op)
  | 0x8 => decodeFamily8 op
  | 0x9 => decodeFamily9 op
  | 0xA => .ldIAddr (fieldNNN op)
  | 0xB => .jpV0 (fieldNNN op)
  | 0xC => .rndByte (fieldX op) (fieldNN op)
  | 0xD => .drw (fieldX op) (fieldY op) (fieldN op)
  | 0xE => decodeFamilyE op
  | 0xF => decodeFamilyF op
  | _ => .unsupported op

/-- Why bytes are no instruction. -/
inductive DecodeError where
  /-- Fewer than the two bytes of an instruction are there (R49). Raised by `decodeBytes` alone; the machine's own
  fetch checks its bounds first and faults (R60), so no step meets it. Safe. -/
  | truncated
  deriving DecidableEq, Repr

/-- The decoder on bytes: exactly two bytes an instruction, the first in bits 15:8 (R37, R49); the rest follows. -/
def decodeBytes (extCls : Bool) : List Byte → Except DecodeError (Instr × List Byte)
  | hi :: lo :: rest => .ok (decode extCls (hi ++ lo), rest)
  | _ => .error .truncated

/-! ### Encoding -/

/-- The word whose four nibbles are `f`, `a`, `b`, `c`, the first in bits 15:12 (R50). -/
def packNibbles (f a b c : Fin 16) : Word :=
  BitVec.ofNat 16 (f.val * 4096 + a.val * 256 + b.val * 16 + c.val)

/-- The word `f a nn`: two nibbles and a low byte (R50). -/
def packByte (f a : Fin 16) (nn : Byte) : Word :=
  BitVec.ofNat 16 (f.val * 4096 + a.val * 256 + nn.toNat)

/-- The word `f nnn`: a nibble and a 12-bit address (R50). -/
def packAddr (f : Fin 16) (nnn : Addr12) : Word :=
  BitVec.ofNat 16 (f.val * 4096 + nnn.toNat)

/-- The word of an instruction, from the patterns of R53. -/
def encode : Instr → Word
  | .cls => 0x00E0
  | .ret => 0x00EE
  | .jpAddr nnn => packAddr 0x1 nnn
  | .callAddr nnn => packAddr 0x2 nnn
  | .seByte x nn => packByte 0x3 x nn
  | .sneByte x nn => packByte 0x4 x nn
  | .seReg x y => packNibbles 0x5 x y 0x0
  | .ldByte x nn => packByte 0x6 x nn
  | .addByte x nn => packByte 0x7 x nn
  | .ldReg x y => packNibbles 0x8 x y 0x0
  | .orReg x y => packNibbles 0x8 x y 0x1
  | .andReg x y => packNibbles 0x8 x y 0x2
  | .xorReg x y => packNibbles 0x8 x y 0x3
  | .addReg x y => packNibbles 0x8 x y 0x4
  | .subReg x y => packNibbles 0x8 x y 0x5
  | .shrReg x y => packNibbles 0x8 x y 0x6
  | .subnReg x y => packNibbles 0x8 x y 0x7
  | .shlReg x y => packNibbles 0x8 x y 0xE
  | .sneReg x y => packNibbles 0x9 x y 0x0
  | .ldIAddr nnn => packAddr 0xA nnn
  | .jpV0 nnn => packAddr 0xB nnn
  | .rndByte x nn => packByte 0xC x nn
  | .drw x y n => packNibbles 0xD x y n
  | .skp x => packByte 0xE x 0x9E
  | .sknp x => packByte 0xE x 0xA1
  | .ldVxDt x => packByte 0xF x 0x07
  | .ldVxK x => packByte 0xF x 0x0A
  | .ldDtVx x => packByte 0xF x 0x15
  | .ldStVx x => packByte 0xF x 0x18
  | .addIVx x => packByte 0xF x 0x1E
  | .ldFVx x => packByte 0xF x 0x29
  | .ldBVx x => packByte 0xF x 0x33
  | .storeRegs x => packByte 0xF x 0x55
  | .loadRegs x => packByte 0xF x 0x65
  | .unsupported op => op

/-- The two bytes of an instruction in the order the memory holds them: bits 15:8 first (R37). -/
def wordBytes (op : Word) : List Byte := [op.extractLsb' 8 8, op.extractLsb' 0 8]

/-! ### The opcode table as the spec lists it (R53) -/

/-- A row of R53: a word is of this row when its bits under `mask` are `value`; `build` reads its operands. -/
structure OpRow where
  mask : Word
  value : Word
  build : Word → Instr

/-- Whether the row matches the word: `(op & mask) = match` (R53). -/
def OpRow.hits (r : OpRow) (op : Word) : Bool := op &&& r.mask == r.value

/-- The 00E0 row, absent when `EXT_CLS` is false (R53). -/
def clsRows (extCls : Bool) : List OpRow :=
  if extCls then [⟨0xFFFF, 0x00E0, fun _ => .cls⟩] else []

/-- Rows 00EE to BNNN of R53: control flow. -/
def controlRows : List OpRow :=
  [⟨0xFFFF, 0x00EE, fun _ => .ret⟩,
   ⟨0xF000, 0x1000, fun op => .jpAddr (fieldNNN op)⟩,
   ⟨0xF000, 0x2000, fun op => .callAddr (fieldNNN op)⟩,
   ⟨0xF000, 0x3000, fun op => .seByte (fieldX op) (fieldNN op)⟩,
   ⟨0xF000, 0x4000, fun op => .sneByte (fieldX op) (fieldNN op)⟩,
   ⟨0xF00F, 0x5000, fun op => .seReg (fieldX op) (fieldY op)⟩,
   ⟨0xF00F, 0x9000, fun op => .sneReg (fieldX op) (fieldY op)⟩,
   ⟨0xF000, 0xB000, fun op => .jpV0 (fieldNNN op)⟩]

/-- Rows 6XNN to CXNN of R53: register loads and arithmetic. -/
def registerRows : List OpRow :=
  [⟨0xF000, 0x6000, fun op => .ldByte (fieldX op) (fieldNN op)⟩,
   ⟨0xF000, 0x7000, fun op => .addByte (fieldX op) (fieldNN op)⟩,
   ⟨0xF00F, 0x8000, fun op => .ldReg (fieldX op) (fieldY op)⟩,
   ⟨0xF00F, 0x8001, fun op => .orReg (fieldX op) (fieldY op)⟩,
   ⟨0xF00F, 0x8002, fun op => .andReg (fieldX op) (fieldY op)⟩,
   ⟨0xF00F, 0x8003, fun op => .xorReg (fieldX op) (fieldY op)⟩,
   ⟨0xF00F, 0x8004, fun op => .addReg (fieldX op) (fieldY op)⟩,
   ⟨0xF00F, 0x8005, fun op => .subReg (fieldX op) (fieldY op)⟩,
   ⟨0xF00F, 0x8006, fun op => .shrReg (fieldX op) (fieldY op)⟩,
   ⟨0xF00F, 0x8007, fun op => .subnReg (fieldX op) (fieldY op)⟩,
   ⟨0xF00F, 0x800E, fun op => .shlReg (fieldX op) (fieldY op)⟩,
   ⟨0xF000, 0xC000, fun op => .rndByte (fieldX op) (fieldNN op)⟩]

/-- Rows ANNN to FX18 of R53: index register, memory, display, keys and timers. -/
def memoryAndDeviceRows : List OpRow :=
  [⟨0xF000, 0xA000, fun op => .ldIAddr (fieldNNN op)⟩,
   ⟨0xF0FF, 0xF01E, fun op => .addIVx (fieldX op)⟩,
   ⟨0xF0FF, 0xF029, fun op => .ldFVx (fieldX op)⟩,
   ⟨0xF0FF, 0xF033, fun op => .ldBVx (fieldX op)⟩,
   ⟨0xF0FF, 0xF055, fun op => .storeRegs (fieldX op)⟩,
   ⟨0xF0FF, 0xF065, fun op => .loadRegs (fieldX op)⟩,
   ⟨0xF000, 0xD000, fun op => .drw (fieldX op) (fieldY op) (fieldN op)⟩,
   ⟨0xF0FF, 0xE09E, fun op => .skp (fieldX op)⟩,
   ⟨0xF0FF, 0xE0A1, fun op => .sknp (fieldX op)⟩,
   ⟨0xF0FF, 0xF00A, fun op => .ldVxK (fieldX op)⟩,
   ⟨0xF0FF, 0xF007, fun op => .ldVxDt (fieldX op)⟩,
   ⟨0xF0FF, 0xF015, fun op => .ldDtVx (fieldX op)⟩,
   ⟨0xF0FF, 0xF018, fun op => .ldStVx (fieldX op)⟩]

/-- The opcode map of R53 but for its last row, the catch-all. -/
def opcodeRows (extCls : Bool) : List OpRow :=
  clsRows extCls ++ controlRows ++ registerRows ++ memoryAndDeviceRows

/-- Whether some row of R53 other than the catch-all matches the word. -/
def matchesRow (extCls : Bool) (op : Word) : Bool := (opcodeRows extCls).any (·.hits op)

/-! ### The host's view of a table word -/

/-- The bytes in memory order of the instruction whose bits are `w`, every bit from `nbits` on being 0. -/
def tableBytes (nbits w : Nat) : List Byte := wordBytes (BitVec.ofNat 16 (w % 2 ^ nbits))

/-- What the decoder reads from a word of the opcode table, in the configuration in which every row of the table
is present (`EXT_CLS` true: the table lists the row 00E0; log entry 5). -/
def decodeTableWord (nbits w : Nat) : Option Instr :=
  match decodeBytes true (tableBytes nbits w) with
  | .ok (i, _) => some i
  | .error _ => none

end Sys2Proof
end

