-- ==== Sys2Proof/WellFormed.lean ====
section
/-! DEFINITION. Which instructions are the reading of some word (R53): operands are of the right width by their
types, so two checks are left, one for 00E0 and one for the catch-all. -/

namespace Sys2Proof

/-- An instruction that stands for some word in the configuration. 00E0 exists only under `EXT_CLS` (R53, R100);
the catch-all takes a word only when no other row of R53 matches it (R108). -/
def Instr.wf (extCls : Bool) : Instr → Bool
  | .cls => extCls
  | .unsupported op => !matchesRow extCls op
  | .ret | .jpAddr _ | .callAddr _ | .seByte _ _ | .sneByte _ _ | .seReg _ _ | .ldByte _ _ | .addByte _ _
  | .ldReg _ _ | .orReg _ _ | .andReg _ _ | .xorReg _ _ | .addReg _ _ | .subReg _ _ | .shrReg _ _ | .subnReg _ _
  | .shlReg _ _ | .sneReg _ _ | .ldIAddr _ | .jpV0 _ | .rndByte _ _ | .drw _ _ _ | .skp _ | .sknp _ | .ldVxDt _
  | .ldVxK _ | .ldDtVx _ | .ldStVx _ | .addIVx _ | .ldFVx _ | .ldBVx _ | .storeRegs _ | .loadRegs _ => true

end Sys2Proof
end

