-- ==== Sys2Proof/Machine/State.lean ====
section
/-! DEFINITION. The state of the machine (10_state.md), its faults (R110) and its value after reset (R32). -/

namespace Sys2Proof.Machine

/-- What a memory access was for (R35, R110). -/
inductive AccessKind where
  | fetch
  | read
  | write
  deriving DecidableEq, Repr

/-- The fatal faults of a step (R110). A step that raises one answers a NEXT state, the state before it with the
fault recorded in `halted` (R65), so no meaning answers `Outcome.fault` (log entry 1). -/
inductive Fault where
  /-- 2NNN with all 16 slots taken (R111). Recorded by the fault entry of `execCallAddr`. Safe: as the spec says. -/
  | stackOverflow
  /-- 00EE with no slot taken (R112). Recorded by the fault entry of `execRet`. Safe: as the spec says. -/
  | stackUnderflow
  /-- An access at or past address 4096 (R113). Recorded by the fault entry of the fetch (`fetch`), of `execDrw` and
  `execLoadRegs` (`read`), and of `execLdBVx` and `execStoreRegs` (`write`). Safe: as the spec says. -/
  | memoryOutOfBounds (kind : AccessKind)
  deriving DecidableEq, Repr

/-- Why the model gives no meaning. -/
inductive Refusal where
  /-- The instruction named has no meaning in the model yet. Raised by no arm of `exec`: every instruction has its
  meaning. Safe. -/
  | notModelled (mnemonic : String)
  deriving DecidableEq, Repr

/-- What a primitive raises: a fault with its information, the faulting address for a memory fault (R9, R65). -/
structure Trap where
  fault : Fault
  addr : Option Word
  deriving DecidableEq, Repr

/-- What `halted` records of a fault (R28). -/
structure FaultRecord where
  fault : Fault
  /-- The address of the faulting instruction. -/
  pc : Word
  /-- Its opcode word, when it was fetched. -/
  opcode : Option Word
  /-- The faulting memory address, for a memory fault. -/
  addr : Option Word
  deriving DecidableEq, Repr

/-- Memory, as the list of the bytes that are not zero, by rising address (log entry 6). An address that is not
listed reads as 0x00, the reset value of every byte (R48). `Memory.wf` is the canonical form. -/
abbrev Memory := List Host.Cell

/-- The framebuffer: `fb[x][y]` is the pixel at column `x`, row `y`, true when it is on (R27). -/
abbrev Framebuffer := Vector (Vector Bool 32) 64

/-- The state of the machine (10_state.md), and two fields of the model's own, `cfg` and `draws`. -/
structure State where
  /-- The general registers V0 to VF (R15, R16). -/
  v : Vector Byte 16
  /-- The program counter (R18, R19). -/
  pc : Word
  /-- The index register `I`, masked to 12 bits when it is written (R20). -/
  idx : Word
  /-- The stack pointer: how many slots are taken, 0 to 16 (R22; log entry 10). -/
  sp : Fin 17
  /-- The 16 return-address slots (R21). -/
  stack : Vector Word 16
  /-- The delay timer `DT` (R23). -/
  dt : Byte
  /-- The sound timer `ST` (R24). -/
  st : Byte
  /-- The 4096 bytes of memory (R34). -/
  mem : Memory
  /-- The key state, true when pressed (R26). -/
  key : Vector Bool 16
  /-- The framebuffer (R27). -/
  fb : Framebuffer
  /-- None while running, the fault once one has stopped the machine (R28). -/
  halted : Option FaultRecord
  /-- The configuration the block was built with (R7, R31): the model's field, which nothing writes (log entry 5). -/
  cfg : Config
  /-- How many random bytes have been drawn: the model's field, from which CXNN takes its free value `Config.rand`
  (R67, R89; log entry 4). -/
  draws : Nat
  deriving DecidableEq, Repr

/-- The machine right after reset (R32): every field of the spec at the value of its table, the configuration at
the defaults of R7, and no random byte drawn (DESIGN CHOICE, log entry 4). -/
def State.reset : State where
  v := Vector.replicate 16 0
  pc := 0x200
  idx := 0
  sp := 0
  stack := Vector.replicate 16 0
  dt := 0
  st := 0
  mem := []
  key := Vector.replicate 16 false
  fb := Vector.replicate 64 (Vector.replicate 32 false)
  halted := none
  cfg := Config.default
  draws := 0

end Sys2Proof.Machine
end

