-- ==== Sys2Proof/Machine/Ops.lean ====
section
/-! DEFINITION. The shared operations over registers, the return stack, memory, the framebuffer and the program
counter; the fetch; taking a fault; and reset, the only way out of one. -/

namespace Sys2Proof.Machine

/-! ### General registers, index register, program counter -/

/-- `V[r]` (R9). -/
def State.getV (s : State) (r : Reg) : Byte := s.v[r]

/-- `V[r] <- b` (R9). No register is hardwired (R15). -/
def State.setV (s : State) (r : Reg) (b : Byte) : State := { s with v := s.v.set r b }

/-- The number of VF, the register that doubles as the flag (R16). -/
abbrev regF : Reg := 15

/-- `I <- w`: every write to the index register is masked to 12 bits (R20). -/
def State.setIdx (s : State) (w : Word) : State := { s with idx := w &&& 0x0FFF }

/-- `pc <- target` (R9). Nothing masks, wraps or aligns it (R19). -/
def State.jump (s : State) (target : Word) : State := { s with pc := target }

/-- The default delta: the next instruction is 2 bytes on (R62). -/
def State.advance (s : State) : State := s.jump (s.pc + 2)

/-- A skip adds 4 in place of 2 when its condition holds, without looking at the word it skips (R62, R63). -/
def State.skipIf (s : State) (c : Bool) : State := s.jump (if c then s.pc + 4 else s.pc + 2)

/-- `key[k]` (R9, R26). -/
def State.keyDown (s : State) (k : Key) : Bool := s.key[k]

/-! ### Memory -/

/-- Whether a memory is in its canonical form from address `lo` on: addresses strictly rising, inside the address
space, and no byte listed that is zero. -/
def Memory.wfFrom : Nat → Memory → Bool
  | _, [] => true
  | lo, (k, b) :: m => decide (lo ≤ k) && decide (k < memSize) && decide (b ≠ 0) && Memory.wfFrom (k + 1) m

/-- The canonical form: two memories in it that read alike are equal. -/
def Memory.wf (m : Memory) : Bool := Memory.wfFrom 0 m

/-- The byte at an address; one that is not listed is 0x00 (R48). -/
def Memory.peek : Memory → Nat → Byte
  | [], _ => 0
  | (k, b) :: m, a => if k = a then b else Memory.peek m a

/-- Put a byte at an address and keep the canonical form: a zero byte is not listed. -/
def Memory.poke : Memory → Nat → Byte → Memory
  | [], a, b => if b = 0 then [] else [(a, b)]
  | (k, c) :: m, a, b =>
    if k < a then (k, c) :: Memory.poke m a b
    else
      let rest := if k = a then m else (k, c) :: m
      if b = 0 then rest else (a, b) :: rest

/-- The trap of an access past the end of memory, with its kind and address (R113). -/
def outOfBounds (kind : AccessKind) (a : Nat) : Trap :=
  { fault := .memoryOutOfBounds kind, addr := some (BitVec.ofNat 16 a) }

/-- `MemRead(a, 1, kind)` (R35): the address is a plain number, checked and never reduced (R36). -/
def memRead (kind : AccessKind) (m : Memory) (a : Nat) : Except Trap Byte :=
  if a < memSize then .ok (m.peek a) else .error (outOfBounds kind a)

/-- `MemWrite(a, 1, b)` (R35). -/
def memWrite (m : Memory) (a : Nat) (b : Byte) : Except Trap Memory :=
  if a < memSize then .ok (m.poke a b) else .error (outOfBounds .write a)

/-- The `n` bytes from address `a` up, read in ascending order; the first address past memory is the one that
faults (R117). -/
def readBlock (m : Memory) : Nat → Nat → Except Trap (List Byte)
  | _, 0 => .ok []
  | a, n + 1 =>
    match memRead .read m a with
    | .error e => .error e
    | .ok b =>
      match readBlock m (a + 1) n with
      | .error e => .error e
      | .ok bs => .ok (b :: bs)

/-- Write the bytes from address `a` up, in ascending order; a fault anywhere leaves nothing written, since the
memory written so far is dropped (R64). -/
def writeBlock (m : Memory) : Nat → List Byte → Except Trap Memory
  | _, [] => .ok m
  | a, b :: bs =>
    match memWrite m a b with
    | .error e => .error e
    | .ok m' => writeBlock m' (a + 1) bs

/-- Put bytes from address `a` up with no check: the host's writes, whose bounds are checked beforehand (R134,
R135). -/
def Memory.pokeAll : Memory → Nat → List Byte → Memory
  | m, _, [] => m
  | m, a, b :: bs => Memory.pokeAll (m.poke a b) (a + 1) bs

/-- Fetch (R60): two bytes, big-endian, `pc` checked before `pc + 1` (R117); no alignment check (R38). -/
def fetchWord (m : Memory) (pc : Word) : Except Trap Word :=
  match memRead .fetch m pc.toNat with
  | .error e => .error e
  | .ok hi =>
    match memRead .fetch m (pc.toNat + 1) with
    | .error e => .error e
    | .ok lo => .ok (hi ++ lo)

/-! ### The return stack -/

/-- Push a return address and count the slot (R22, R70); with all 16 slots taken, `StackOverflow` (R111). -/
def push (a : Word) (s : State) : Except Trap State :=
  if h : s.sp.val < 16 then
    .ok { s with stack := s.stack.set s.sp.val a, sp := ⟨s.sp.val + 1, Nat.succ_lt_succ h⟩ }
  else .error { fault := .stackOverflow, addr := none }

/-- Pop the last return address into `pc`; the slot keeps its value (R22, R71). With no slot taken,
`StackUnderflow` (R112). -/
def popPc (s : State) : Except Trap State :=
  if h : 0 < s.sp.val then
    .ok { s with
      sp := ⟨s.sp.val - 1, Nat.lt_of_le_of_lt (Nat.sub_le _ _) s.sp.isLt⟩
      pc := s.stack[s.sp.val - 1]'(Nat.lt_of_lt_of_le (Nat.sub_lt h Nat.one_pos) (Nat.le_of_lt_succ s.sp.isLt)) }
  else .error { fault := .stackUnderflow, addr := none }

/-! ### The framebuffer -/

/-- `fb[x][y]` (R27). -/
def Framebuffer.get (fb : Framebuffer) (x : Fin 64) (y : Fin 32) : Bool := fb[x][y]

/-- `fb[x][y] <- not fb[x][y]` (R96). -/
def Framebuffer.toggle (fb : Framebuffer) (x : Fin 64) (y : Fin 32) : Framebuffer :=
  fb.set x (fb[x].set y (!fb[x][y]))

/-- Every pixel off (R27, R32). -/
def Framebuffer.clear : Framebuffer := Vector.replicate 64 (Vector.replicate 32 false)

/-! ### Taking a fault, and the way out of it -/

/-- The record of a fault raised in state `s` (R28, R65). `opcode` is the faulting instruction's word, none when it
was not fetched. -/
def faultRecord (opcode : Option Word) (e : Trap) (s : State) : FaultRecord :=
  { fault := e.fault, pc := s.pc, opcode := opcode, addr := e.addr }

/-- Taking a fault (R65, R118): the state before the step with only `halted` written. Nothing else is saved, no
mode changes and control goes nowhere; `pc` still addresses the faulting instruction. -/
def takeFault (opcode : Option Word) (e : Trap) (s : State) : State :=
  { s with halted := some (faultRecord opcode e s) }

/-- The end of a step of instruction `i` begun in `s` (R64): commit every write, or take the fault and commit none.
The recorded opcode is the word of `i` (log entry 8). -/
def commit (i : Instr) (s : State) (r : Except Trap State) : Host.Outcome State Fault Refusal :=
  match r with
  | .ok t => .next t
  | .error e => .next (takeFault (some (encode i)) e s)

/-- `reset` (R131): every field of the block at its reset value, whatever the state was, `halted` included. There is
no instruction that returns from a fault; this is the only way out (R119). The configuration is no state of the
block, and the random source goes on (log entry 17). -/
def hardReset (s : State) : State := { State.reset with cfg := s.cfg, draws := s.draws }

/-! ### The host's view of a table word -/

/-- One byte stored where it can be: no byte exists past the end of memory (R34). -/
def Memory.pokeIn (m : Memory) (a : Nat) (b : Byte) : Memory := if a < memSize then m.poke a b else m

/-- The state in which the next step runs the instruction whose bits are `w`: its bytes stored at `pc`, the machine
running, and for the word 0x00E0 the configuration in which the table has that row (log entries 5 and 7). -/
def placeFetchWord (s : State) (nbits w : Nat) : State :=
  let op := BitVec.ofNat 16 (w % 2 ^ nbits)
  { s with
    mem := (s.mem.pokeIn s.pc.toNat (op.extractLsb' 8 8)).pokeIn (s.pc.toNat + 1) (op.extractLsb' 0 8)
    halted := none
    cfg := if op = 0x00E0 then { s.cfg with extCls := true } else s.cfg }

end Sys2Proof.Machine
end

