-- ==== Sys2Proof/Machine/Operands.lean ====
section
/-! DEFINITION. The operand forms: what an instruction reads its operands as, and the addresses, keys, digits and
pixels it names by them. -/

namespace Sys2Proof.Machine

/-- The value of a 12-bit address field, widened with zeros (R52). -/
def addrWord (nnn : Addr12) : Word := nnn.setWidth 16

/-- The value of a register widened with zeros to 16 bits (R8, R76, R91). -/
def byteWord (b : Byte) : Word := b.setWidth 16

/-- A number below 16, a key number or a digit, as a register value (R93, R104). -/
def keyByte (k : Key) : Byte := BitVec.ofNat 8 k.val

/-- The key a register names: its low nibble (R101). The font digit of FX29 is read the same way (R92). -/
def lowNibble (b : Byte) : Fin 16 := ⟨b.toNat % 16, Nat.mod_lt _ (by decide)⟩

/-- The target of BNNN: a 16-bit sum, at most 0x10FE, that nothing masks (R76). -/
def offsetTarget (v0 : Byte) (nnn : Addr12) : Word := byteWord v0 + addrWord nnn

/-- `FONT_BASE`, where the glyphs of the standard font are taken to be (R7, R92). -/
def fontBase : Nat := 0x050

/-- `FONT_GLYPH_BYTES`, the bytes of one glyph (R7, R92). -/
def fontGlyphBytes : Nat := 5

/-- The address of the glyph of the digit in a register: only its low nibble selects it (R92). -/
def glyphAddr (b : Byte) : Word := BitVec.ofNat 16 (fontBase + fontGlyphBytes * (lowNibble b).val)

/-- The decimal digits of a register, hundreds first (R93). -/
def bcdDigits (b : Byte) : List Byte :=
  [BitVec.ofNat 8 (b.toNat / 100), BitVec.ofNat 8 (b.toNat / 10 % 10), BitVec.ofNat 8 (b.toNat % 10)]

/-- The registers V0 to Vx in order (R94). -/
def regBlock (s : State) (x : Reg) : List Byte := (s.v.toList).take (x.val + 1)

/-- Registers from number `k` up take the bytes in order (R95). -/
def loadBlock : Vector Byte 16 → Nat → List Byte → Vector Byte 16
  | v, _, [] => v
  | v, k, b :: bs => if h : k < 16 then loadBlock (v.set k b) (k + 1) bs else v

/-- Every key, the lowest number first. -/
def allKeys : List Key := [0, 1, 2, 3, 4, 5, 6, 7, 8, 9, 10, 11, 12, 13, 14, 15]

/-- The lowest-numbered pressed key, if any is pressed (R104). -/
def firstPressed (key : Vector Bool 16) : Option Key := allKeys.find? fun k => key[k]

/-! ### Sprites -/

/-- The column of a sprite pixel: it wraps at the right edge, and a start past the grid is reduced the same way
(R97). -/
def pixelX (x0 : Byte) (c : Nat) : Fin 64 := ⟨(x0.toNat + c) % 64, Nat.mod_lt _ (by decide)⟩

/-- The row of a sprite pixel: it wraps at the bottom edge (R97). -/
def pixelY (y0 : Byte) (r : Nat) : Fin 32 := ⟨(y0.toNat + r) % 32, Nat.mod_lt _ (by decide)⟩

/-- The pixels that row `r` of a sprite toggles, left to right: bit 7 of the byte is the leftmost (R96, R99). -/
def rowPixels (x0 y0 : Byte) (r : Nat) (row : Byte) : List (Fin 64 × Fin 32) :=
  ((List.range 8).filter fun c => row.getLsbD (7 - c)).map fun c => (pixelX x0 c, pixelY y0 r)

/-- The pixels a sprite toggles, from row `r` on, in the order of the two loops of R96. -/
def spritePixels (x0 y0 : Byte) : Nat → List Byte → List (Fin 64 × Fin 32)
  | _, [] => []
  | r, row :: rows => rowPixels x0 y0 r row ++ spritePixels x0 y0 (r + 1) rows

end Sys2Proof.Machine
end

