-- ==== Sys2Proof/Machine/ControlFlow.lean ====
section
/-! DEFINITION. Control flow (41_control_flow.md): jump, call, return, the skips and the computed jump. -/

namespace Sys2Proof.Machine

/-- 1NNN (R69): `pc <- NNN`. -/
def execJpAddr (nnn : Addr12) (s : State) : Host.Outcome State Fault Refusal :=
  .next (s.jump (addrWord nnn))

/-- 2NNN (R70): push the address after this instruction, then `pc <- NNN`; `StackOverflow` when the stack is full. -/
def execCallAddr (nnn : Addr12) (s : State) : Host.Outcome State Fault Refusal :=
  commit (.callAddr nnn) s ((push (s.pc + 2) s).map fun t => t.jump (addrWord nnn))

/-- 00EE (R71): pop the return address into `pc`; `StackUnderflow` when the stack is empty. -/
def execRet (s : State) : Host.Outcome State Fault Refusal :=
  commit .ret s (popPc s)

/-- 3XNN (R72): skip when Vx equals the immediate. -/
def execSeByte (x : Reg) (nn : Byte) (s : State) : Host.Outcome State Fault Refusal :=
  .next (s.skipIf (s.getV x == nn))

/-- 4XNN (R73): skip when Vx differs from the immediate. -/
def execSneByte (x : Reg) (nn : Byte) (s : State) : Host.Outcome State Fault Refusal :=
  .next (s.skipIf (s.getV x != nn))

/-- 5XY0 (R74): skip when Vx equals Vy. -/
def execSeReg (x y : Reg) (s : State) : Host.Outcome State Fault Refusal :=
  .next (s.skipIf (s.getV x == s.getV y))

/-- 9XY0 (R75): skip when Vx differs from Vy. -/
def execSneReg (x y : Reg) (s : State) : Host.Outcome State Fault Refusal :=
  .next (s.skipIf (s.getV x != s.getV y))

/-- BNNN (R76): `pc <- V0 + NNN`, always V0, not masked. -/
def execJpV0 (nnn : Addr12) (s : State) : Host.Outcome State Fault Refusal :=
  .next (s.jump (offsetTarget (s.getV 0) nnn))

end Sys2Proof.Machine
end

