-- ==== Sys2Proof/Machine/Flags.lean ====
section
/-! DEFINITION. The flag computations (R16, R77): each operation gives its 8-bit result and the bit that goes to VF,
from the exact result on numbers, and one operation writes the two. -/

namespace Sys2Proof.Machine

/-- A flag as the value of VF: 1 or 0 (R77). -/
def flagByte (c : Bool) : Byte := if c then 1 else 0

/-- Sum on 8 bits, and the carry out of it (R77, R84). -/
def addCarry (a b : Byte) : Byte × Bool :=
  let sum := a.toNat + b.toNat
  (BitVec.ofNat 8 sum, decide (sum > 255))

/-- Difference `a - b` on 8 bits, and not-borrow: 1 when `a >= b`, equal operands included (R77, R85, R87). -/
def subNotBorrow (a b : Byte) : Byte × Bool :=
  (BitVec.ofNat 8 (a.toNat + 256 - b.toNat), decide (a.toNat ≥ b.toNat))

/-- Shift right by one, and the bit shifted out, old bit 0 (R77, R86). -/
def shiftRightOut (a : Byte) : Byte × Bool := (a >>> 1, a.getLsbD 0)

/-- Shift left by one, and the bit shifted out, old bit 7 (R77, R88). -/
def shiftLeftOut (a : Byte) : Byte × Bool := (a <<< 1, a.getLsbD 7)

/-- Write a result to Vx and its flag to VF: the result first and the flag last, so with X = 0xF the flag stays
(R17). -/
def State.setVFlag (s : State) (x : Reg) (r : Byte × Bool) : State := (s.setV x r.1).setV regF (flagByte r.2)

end Sys2Proof.Machine
end

