-- ==== Sys2Proof/Machine/Display.lean ====
section
/-! DEFINITION. The display (44_display.md): the sprite draw, and clear screen under `EXT_CLS`. -/

namespace Sys2Proof.Machine

/-- Draw one pixel: note a collision when it was on, then toggle it (R96). -/
def drawPixel (p : Framebuffer × Bool) (at_ : Fin 64 × Fin 32) : Framebuffer × Bool :=
  (p.1.toggle at_.1 at_.2, p.2 || p.1.get at_.1 at_.2)

/-- Draw pixels one after another, from no collision (R96). -/
def drawPixels (fb : Framebuffer) (ps : List (Fin 64 × Fin 32)) : Framebuffer × Bool :=
  ps.foldl drawPixel (fb, false)

/-- DXYN (R96): XOR the N rows of the sprite at I onto the framebuffer at (Vx, Vy), both read before any write; VF is
written last, 1 when a pixel that was on went off. No pixel and no register changes when a row is past memory
(R64; log entry 16). -/
def execDrw (x y : Reg) (n : Fin 16) (s : State) : Host.Outcome State Fault Refusal :=
  commit (.drw x y n) s
    ((readBlock s.mem s.idx.toNat n.val).map fun rows =>
      let drawn := drawPixels s.fb (spritePixels (s.getV x) (s.getV y) 0 rows)
      (({ s with fb := drawn.1 } : State).setV regF (flagByte drawn.2)).advance)

/-- 00E0 (R100): under `EXT_CLS` every pixel goes off; otherwise the word is an unsupported opcode, which only
advances `pc` (R108). -/
def execCls (s : State) : Host.Outcome State Fault Refusal :=
  .next (if s.cfg.extCls then ({ s with fb := Framebuffer.clear } : State).advance else s.advance)

end Sys2Proof.Machine
end

