-- ==== Sys2Proof/Machine/IndexMemory.lean ====
section
/-! DEFINITION. The index register and memory transfers (43_index_memory.md). A transfer commits every byte or,
when one of its addresses is past memory, none (R64). -/

namespace Sys2Proof.Machine

/-- ANNN (R90): `I <- NNN`. -/
def execLdIAddr (nnn : Addr12) (s : State) : Host.Outcome State Fault Refusal :=
  .next (s.setIdx (addrWord nnn)).advance

/-- FX1E (R91): `I <- I + Vx` on 12 bits; VF is not written. -/
def execAddIVx (x : Reg) (s : State) : Host.Outcome State Fault Refusal :=
  .next (s.setIdx (s.idx + byteWord (s.getV x))).advance

/-- FX29 (R92): `I <-` the address of the glyph of the digit in Vx, font installed or not. -/
def execLdFVx (x : Reg) (s : State) : Host.Outcome State Fault Refusal :=
  .next (s.setIdx (glyphAddr (s.getV x))).advance

/-- FX33 (R93): the three decimal digits of Vx to memory at I, hundreds first; I is unchanged. -/
def execLdBVx (x : Reg) (s : State) : Host.Outcome State Fault Refusal :=
  commit (.ldBVx x) s
    ((writeBlock s.mem s.idx.toNat (bcdDigits (s.getV x))).map fun m => ({ s with mem := m } : State).advance)

/-- FX55 (R94): V0 to Vx to memory at I; I is unchanged. -/
def execStoreRegs (x : Reg) (s : State) : Host.Outcome State Fault Refusal :=
  commit (.storeRegs x) s
    ((writeBlock s.mem s.idx.toNat (regBlock s x)).map fun m => ({ s with mem := m } : State).advance)

/-- FX65 (R95): V0 to Vx from memory at I; I is unchanged. -/
def execLoadRegs (x : Reg) (s : State) : Host.Outcome State Fault Refusal :=
  commit (.loadRegs x) s
    ((readBlock s.mem s.idx.toNat (x.val + 1)).map fun bs => ({ s with v := loadBlock s.v 0 bs } : State).advance)

end Sys2Proof.Machine
end

