-- ==== Sys2Proof/Machine/InputTimers.lean ====
section
/-! DEFINITION. Key input and timers (45_input_timers.md). Nothing here touches memory or raises a fault. -/

namespace Sys2Proof.Machine

/-- EX9E (R102): skip when the key named by Vx is pressed. -/
def execSkp (x : Reg) (s : State) : Host.Outcome State Fault Refusal :=
  .next (s.skipIf (s.keyDown (lowNibble (s.getV x))))

/-- EXA1 (R103): skip when the key named by Vx is not pressed. -/
def execSknp (x : Reg) (s : State) : Host.Outcome State Fault Refusal :=
  .next (s.skipIf !s.keyDown (lowNibble (s.getV x)))

/-- FX07 (R105): `Vx <- DT`. -/
def execLdVxDt (x : Reg) (s : State) : Host.Outcome State Fault Refusal :=
  .next (s.setV x s.dt).advance

/-- FX0A (R104): with a key pressed, Vx takes the lowest pressed one; with none, nothing is written and `pc` stays, so
the next step runs this instruction again (R29). -/
def execLdVxK (x : Reg) (s : State) : Host.Outcome State Fault Refusal :=
  .next (match firstPressed s.key with
    | some k => (s.setV x (keyByte k)).advance
    | none => s)

/-- FX15 (R106): `DT <- Vx`. -/
def execLdDtVx (x : Reg) (s : State) : Host.Outcome State Fault Refusal :=
  .next ({ s with dt := s.getV x } : State).advance

/-- FX18 (R107): `ST <- Vx`. -/
def execLdStVx (x : Reg) (s : State) : Host.Outcome State Fault Refusal :=
  .next ({ s with st := s.getV x } : State).advance

end Sys2Proof.Machine
end

