-- ==== Sys2Proof/Machine/RegisterAlu.lean ====
section
/-! DEFINITION. Register loads and arithmetic (42_register_alu.md). Every instruction here advances `pc` by 2 and
raises no fault. -/

namespace Sys2Proof.Machine

/-- 6XNN (R78): `Vx <- NN`. -/
def execLdByte (x : Reg) (nn : Byte) (s : State) : Host.Outcome State Fault Refusal :=
  .next (s.setV x nn).advance

/-- 7XNN (R79): `Vx <- Vx + NN` on 8 bits; the carry is dropped and VF is no flag here. -/
def execAddByte (x : Reg) (nn : Byte) (s : State) : Host.Outcome State Fault Refusal :=
  .next (s.setV x (addCarry (s.getV x) nn).1).advance

/-- 8XY0 (R80): `Vx <- Vy`. -/
def execLdReg (x y : Reg) (s : State) : Host.Outcome State Fault Refusal :=
  .next (s.setV x (s.getV y)).advance

/-- 8XY1 (R81): bitwise OR; VF is written only as Vx. -/
def execOrReg (x y : Reg) (s : State) : Host.Outcome State Fault Refusal :=
  .next (s.setV x (s.getV x ||| s.getV y)).advance

/-- 8XY2 (R82): bitwise AND; VF is written only as Vx. -/
def execAndReg (x y : Reg) (s : State) : Host.Outcome State Fault Refusal :=
  .next (s.setV x (s.getV x &&& s.getV y)).advance

/-- 8XY3 (R83): bitwise XOR; VF is written only as Vx. -/
def execXorReg (x y : Reg) (s : State) : Host.Outcome State Fault Refusal :=
  .next (s.setV x (s.getV x ^^^ s.getV y)).advance

/-- 8XY4 (R84): `Vx <- Vx + Vy`, VF the carry. -/
def execAddReg (x y : Reg) (s : State) : Host.Outcome State Fault Refusal :=
  .next (s.setVFlag x (addCarry (s.getV x) (s.getV y))).advance

/-- 8XY5 (R85): `Vx <- Vx - Vy`, VF not-borrow. -/
def execSubReg (x y : Reg) (s : State) : Host.Outcome State Fault Refusal :=
  .next (s.setVFlag x (subNotBorrow (s.getV x) (s.getV y))).advance

/-- 8XY6 (R86): `Vx <- Vx >> 1`, VF the bit shifted out; the register named by Y is not read. -/
def execShrReg (x _y : Reg) (s : State) : Host.Outcome State Fault Refusal :=
  .next (s.setVFlag x (shiftRightOut (s.getV x))).advance

/-- 8XY7 (R87): `Vx <- Vy - Vx`, VF not-borrow. -/
def execSubnReg (x y : Reg) (s : State) : Host.Outcome State Fault Refusal :=
  .next (s.setVFlag x (subNotBorrow (s.getV y) (s.getV x))).advance

/-- 8XYE (R88): `Vx <- Vx << 1`, VF the bit shifted out; the register named by Y is not read. -/
def execShlReg (x _y : Reg) (s : State) : Host.Outcome State Fault Refusal :=
  .next (s.setVFlag x (shiftLeftOut (s.getV x))).advance

/-- CXNN with the random byte `rand` (R89): `Vx <- rand & NN`. -/
def rndWith (rand : Byte) (x : Reg) (nn : Byte) (s : State) : State := (s.setV x (rand &&& nn)).advance

/-- CXNN (R89): the step's random byte is the next free value of `Config.rand`, which the counter then passes
(R67; log entry 4). -/
def execRndByte (x : Reg) (nn : Byte) (s : State) : Host.Outcome State Fault Refusal :=
  .next { rndWith (Config.rand s.draws) x nn s with draws := s.draws + 1 }

end Sys2Proof.Machine
end

