-- ==== Sys2Proof/Machine/Unsupported.lean ====
section
/-! DEFINITION. Unsupported opcodes (46_unsupported.md). -/

namespace Sys2Proof.Machine

/-- Any other word (R108, R109): only `pc` changes, by the default delta; the diagnostic is the step's result
(`stepFull`, log entry 3). -/
def execUnsupported (_op : Word) (s : State) : Host.Outcome State Fault Refusal :=
  .next s.advance

end Sys2Proof.Machine
end

