-- ==== Sys2Proof/Machine/Step.lean ====
section
/-! DEFINITION. The step cycle (40_step.md). -/

namespace Sys2Proof.Machine

/-- One fetch-decode-execute cycle (R57, R58). A halted machine changes nothing (R59); a fetch past memory takes its
fault (R60, R65); otherwise the decoded instruction runs, and it sets the next `pc` itself (R62). The random byte of
R57 is the free value of `Config.rand` (log entry 4), and what R57 returns beside the state is `stepFull`'s. -/
def step (s : State) : Host.Outcome State Fault Refusal :=
  match s.halted with
  | some _ => .next s
  | none =>
    match fetchWord s.mem s.pc with
    | .error e => .next (takeFault none e s)
    | .ok op => exec (decode s.cfg.extCls op) s

/-- The state with the instruction of the opcode table's word placed where the next step fetches it. -/
def State.withFetchWord (s : State) (nbits w : Nat) : State := placeFetchWord s nbits w

end Sys2Proof.Machine
end

