-- ==== Sys2Proof/Machine/HostCalls.lean ====
section
/-! DEFINITION. The host's side (60_exceptions.md, 70_reset_and_hazards.md): the result of a step (R57), the host
operations (R122), the loader, the font and boot. The host calls them one at a time, in any order and in any state
(R44, R122). -/

namespace Sys2Proof.Machine

/-! ### The result of a step -/

/-- What a step returns beside the next state (R57). -/
inductive StepResult where
  /-- An instruction ran to completion. -/
  | executed
  /-- FX0A found no key pressed; `pc` is unchanged. -/
  | waiting
  /-- The non-fatal diagnostic `UnsupportedOpcode` (R114). -/
  | unsupported (op : Word)
  /-- This step raised a fatal fault; the machine is now halted. -/
  | fault (r : FaultRecord)
  /-- The machine was halted already; nothing changed. -/
  | halted (r : FaultRecord)
  deriving DecidableEq, Repr

/-- The result of an instruction that raised no fault, run in `s`: the diagnostic for an unsupported word (R108; 00E0
is one without `EXT_CLS`, R100), `waiting` for FX0A with no key pressed (R104), else `executed` (R57). -/
def completedResult (i : Instr) (s : State) : StepResult :=
  match i with
  | .unsupported op => .unsupported op
  | .cls => if s.cfg.extCls then .executed else .unsupported (encode .cls)
  | .ldVxK _ => if (firstPressed s.key).isNone then .waiting else .executed
  | .ret | .jpAddr _ | .callAddr _ | .seByte _ _ | .sneByte _ _ | .seReg _ _ | .ldByte _ _ | .addByte _ _
  | .ldReg _ _ | .orReg _ _ | .andReg _ _ | .xorReg _ _ | .addReg _ _ | .subReg _ _ | .shrReg _ _ | .subnReg _ _
  | .shlReg _ _ | .sneReg _ _ | .ldIAddr _ | .jpV0 _ | .rndByte _ _ | .drw _ _ _ | .skp _ | .sknp _ | .ldVxDt _
  | .ldDtVx _ | .ldStVx _ | .addIVx _ | .ldFVx _ | .ldBVx _ | .storeRegs _ | .loadRegs _ => .executed

/-- The result of instruction `i` run in `s` and ending in `t` (R57): the fault it raised, if it raised one (R65). -/
def execResult (i : Instr) (s t : State) : StepResult :=
  match t.halted with
  | some r => .fault r
  | none => completedResult i s

/-- The step of R57 with both of its parts, the next state and the result. -/
def stepFull (s : State) : Host.Outcome (State × StepResult) Fault Refusal :=
  match s.halted with
  | some r => .next (s, .halted r)
  | none =>
    match fetchWord s.mem s.pc with
    | .error e => .next (takeFault none e s, .fault (faultRecord none e s))
    | .ok op =>
      match exec (decode s.cfg.extCls op) s with
      | .next t =>
        .next (t, execResult (decode s.cfg.extCls op) s t)
      | .fault f => .fault f
      | .refused r => .refused r

/-! ### Devices -/

/-- A timer counts down to 0 and holds (R23, R123). -/
def tickDown (t : Byte) : Byte := if t.toNat > 0 then t - 1 else t

/-- `tickTimers` (R123): both timers in one operation, in every state, halted included. -/
def tickTimers (s : State) : State := { s with dt := tickDown s.dt, st := tickDown s.st }

/-- The buzzer output (R25, R124): on while the sound timer is not 0. -/
def buzzer (s : State) : Bool := decide (s.st.toNat > 0)

/-! ### Loading -/

/-- The program image to memory from 0x200 up (R134). -/
def loadImage (image : List Byte) (s : State) : State := { s with mem := s.mem.pokeAll loadAddr image }

/-- Glyphs 0 to 7 of the standard font (93_implementation_defined.md, part C). -/
def fontLow : List Byte :=
  [0xF0, 0x90, 0x90, 0x90, 0xF0,  0x20, 0x60, 0x20, 0x20, 0x70,
   0xF0, 0x10, 0xF0, 0x80, 0xF0,  0xF0, 0x10, 0xF0, 0x10, 0xF0,
   0x90, 0x90, 0xF0, 0x10, 0x10,  0xF0, 0x80, 0xF0, 0x10, 0xF0,
   0xF0, 0x80, 0xF0, 0x90, 0xF0,  0xF0, 0x10, 0x20, 0x40, 0x40]

/-- Glyphs 8 to F of the standard font (93_implementation_defined.md, part C). -/
def fontHigh : List Byte :=
  [0xF0, 0x90, 0xF0, 0x90, 0xF0,  0xF0, 0x90, 0xF0, 0x10, 0xF0,
   0xF0, 0x90, 0xF0, 0x90, 0x90,  0xE0, 0x90, 0xE0, 0x90, 0xE0,
   0xF0, 0x80, 0x80, 0x80, 0xF0,  0xE0, 0x90, 0x90, 0x90, 0xE0,
   0xF0, 0x80, 0xF0, 0x80, 0xF0,  0xF0, 0x80, 0xF0, 0x80, 0x80]

/-- The 80 bytes of the standard font (R135). -/
def fontBytes : List Byte := fontLow ++ fontHigh

/-- The host's font write (R135): under `FONT_INSTALLED` the font goes to `FONT_BASE`, otherwise nothing is
written (log entry 13). -/
def installFont (s : State) : State :=
  if s.cfg.fontInstalled then { s with mem := s.mem.pokeAll fontBase fontBytes } else s

/-! ### Host operations -/

/-- An operation by which the host reaches the block (R122). Arguments are integers, as a caller can pass any
(R116; log entry 12). `installFont` is the host's write of R135. -/
inductive HostCall where
  | step
  | tickTimers
  | setKey (k : Int) (pressed : Bool)
  | getPixel (x y : Int)
  | buzzer
  | load (image : List Byte)
  | reset
  | installFont
  deriving DecidableEq, Repr

/-- What a host operation returns. -/
inductive HostResult where
  | ok
  /-- The result of a step (R57). -/
  | stepped (r : StepResult)
  /-- A step that the model does not give a next state for; there is none (R68). -/
  | noStep
  | pixel (on : Bool)
  | buzzing (on : Bool)
  /-- `LoadError`, with the image's length (R115). -/
  | loadError (length : Nat)
  /-- `OutOfRange`, with the arguments of the call (R116; log entry 22). -/
  | outOfRange (args : List Int)
  deriving DecidableEq, Repr

/-- `setKey(k, pressed)` (R125): one key, when there is such a key; otherwise `OutOfRange`. -/
def setKey (k : Int) (pressed : Bool) (s : State) : State × HostResult :=
  if h : 0 ≤ k ∧ k < 16 then
    ({ s with key := s.key.set k.toNat pressed (by omega) }, .ok)
  else (s, .outOfRange [k])

/-- `getPixel(x, y)` (R126): the pixel, when there is such a pixel; otherwise `OutOfRange`. DESIGN CHOICE: it records
both coordinates, in order, also when one of them alone is out of range (R110 says 'the argument'; log entry 22). -/
def getPixel (x y : Int) (s : State) : HostResult :=
  if h : (0 ≤ x ∧ x < 64) ∧ (0 ≤ y ∧ y < 32) then
    .pixel (s.fb.get ⟨x.toNat, by omega⟩ ⟨y.toNat, by omega⟩)
  else .outOfRange [x, y]

/-- `load(image)` (R134): all of the image, or `LoadError` and no byte of it; nothing but memory is written. -/
def load (image : List Byte) (s : State) : State × HostResult :=
  if image.length > maxImage then (s, .loadError image.length) else (loadImage image s, .ok)

/-- One host operation (R122), atomic and in any state. -/
def callHost (c : HostCall) (s : State) : State × HostResult :=
  match c with
  | .step =>
    match stepFull s with
    | .next (t, r) => (t, .stepped r)
    | .fault _ => (s, .noStep)
    | .refused _ => (s, .noStep)
  | .tickTimers => (Sys2Proof.Machine.tickTimers s, .ok)
  | .setKey k pressed => Sys2Proof.Machine.setKey k pressed s
  | .getPixel x y => (s, Sys2Proof.Machine.getPixel x y s)
  | .buzzer => (s, .buzzing (Sys2Proof.Machine.buzzer s))
  | .load image => Sys2Proof.Machine.load image s
  | .reset => (hardReset s, .ok)
  | .installFont => (Sys2Proof.Machine.installFont s, .ok)

/-- A run: host operations one after another, in the order the host calls them (R44, R143). -/
def runHost : List HostCall → State → State
  | [], s => s
  | c :: cs, s => runHost cs (callHost c s).1

/-! ### Construction and boot -/

/-- A newly constructed machine with a configuration: the reset state (R133). -/
def powerOn (cfg : Config) : State := { State.reset with cfg := cfg }

/-- Boot (R136): construction, the font if configured, then the loader. -/
def boot (cfg : Config) (image : List Byte) : State × HostResult := load image (installFont (powerOn cfg))

/-! ### Error codes -/

/-- The code of a fatal fault (R110): a label, which nothing in the machine depends on. -/
def faultCode : Fault → Nat
  | .stackOverflow => 1
  | .stackUnderflow => 2
  | .memoryOutOfBounds _ => 3

/-- The code of what a step reports, if it reports an error (R110): 16 for `UnsupportedOpcode`. DESIGN CHOICE: a step
on a halted machine, which raises nothing (R119), reports the code of the recorded fault again (log entry 21). -/
def stepResultCode : StepResult → Option Nat
  | .executed => none
  | .waiting => none
  | .unsupported _ => some 16
  | .fault r => some (faultCode r.fault)
  | .halted r => some (faultCode r.fault)

/-- The code of what a host operation reports, if it reports an error (R110): 32 for `LoadError`, 33 for
`OutOfRange`. -/
def hostResultCode : HostResult → Option Nat
  | .stepped r => stepResultCode r
  | .loadError _ => some 32
  | .outOfRange _ => some 33
  | .ok => none
  | .noStep => none
  | .pixel _ => none
  | .buzzing _ => none

end Sys2Proof.Machine
end

