-- ==== Sys2Proof/Safety.lean ====
section
/-! DEFINITION. The terms claims are stated in: a running machine, the invariant of every reachable state (R33), a
well-formed fault record (R110), and what an operation leaves unchanged. -/

namespace Sys2Proof.Machine

/-- No fatal fault has stopped the machine (R28). -/
def State.Running (s : State) : Prop := s.halted = none

/-- What a fault record says by the kind of its fault (R110): the stack faults have an opcode and no address; a
fetch fault has the first address past memory and no opcode; the other memory faults have an opcode and the address
0x1000 (R113). -/
def FaultRecord.wf (r : FaultRecord) : Bool :=
  match r.fault with
  | .stackOverflow => r.opcode.isSome && r.addr.isNone
  | .stackUnderflow => r.opcode.isSome && r.addr.isNone
  | .memoryOutOfBounds .fetch =>
    r.opcode.isNone && decide (r.addr = some (if r.pc.toNat < memSize then 0x1000 else r.pc))
  | .memoryOutOfBounds .read => r.opcode.isSome && decide (r.addr = some 0x1000)
  | .memoryOutOfBounds .write => r.opcode.isSome && decide (r.addr = some 0x1000)

/-- What holds in every state reachable by host operations (R33): the bounds of `I`, `pc` and the stack slots (that
of `sp` is its type's), and beside them the canonical form of memory and a fault record that is that of the
instruction `pc` addresses. -/
structure State.Inv (s : State) : Prop where
  idx_le : s.idx.toNat ≤ 0x0FFF
  pc_le : s.pc.toNat ≤ 0x10FE
  stack_le : ∀ k : Fin 16, s.stack[k].toNat ≤ 0x1000
  mem_wf : s.mem.wf = true
  halted_wf : ∀ r, s.halted = some r → r.wf = true ∧ r.pc = s.pc

/-- A state that some sequence of host operations reaches from construction (R33, R133). -/
def State.Reachable (s : State) : Prop := ∃ cfg calls, s = runHost calls (powerOn cfg)

/-- The parts of the state, for saying what an operation may change. -/
inductive Part where
  | v | pc | idx | sp | stack | dt | st | mem | key | fb | halted | draws
  deriving DecidableEq, Repr

/-- Every part of the state outside `ps` is the same in `t` as in `s`: each register, each stack slot, each byte of
memory, each key and each pixel. The configuration is always the same. -/
structure SameExcept (ps : List Part) (s t : State) : Prop where
  v : Part.v ∉ ps → ∀ r, t.getV r = s.getV r
  pc : Part.pc ∉ ps → t.pc = s.pc
  idx : Part.idx ∉ ps → t.idx = s.idx
  sp : Part.sp ∉ ps → t.sp = s.sp
  stack : Part.stack ∉ ps → ∀ k : Fin 16, t.stack[k] = s.stack[k]
  dt : Part.dt ∉ ps → t.dt = s.dt
  st : Part.st ∉ ps → t.st = s.st
  mem : Part.mem ∉ ps → ∀ a, t.mem.peek a = s.mem.peek a
  key : Part.key ∉ ps → ∀ k : Key, t.key[k] = s.key[k]
  fb : Part.fb ∉ ps → ∀ x y, t.fb.get x y = s.fb.get x y
  halted : Part.halted ∉ ps → t.halted = s.halted
  draws : Part.draws ∉ ps → t.draws = s.draws
  cfg : t.cfg = s.cfg

end Sys2Proof.Machine
end

