-- ==== Sys2Proof/Certificates/Slice0/Obligations.lean ====
section
/-! DEFINITION. The statements for the provers. Each names the rules of spec/ it formalises; where it rests on a
decision the spec marks as its own (`[decision: see 92_eei_decisions.md D<n>]`) or on a choice of the model (a log
entry), its docstring says so. -/

namespace Sys2Proof.Machine

/-! ### Terms of the statements -/

/-- A row of R53: every word whose bits under `mask` are `value` decodes, in either configuration, to the instruction
that `build` reads from its fields. -/
def RowDecodes (mask value : Word) (build : Word → Instr) : Prop :=
  ∀ ext op, op &&& mask = value → decode ext op = build op

/-- Instruction `i` run in `s` takes the fault (R65): the next state is `s` with `halted` the record of that fault,
and nothing else is different. -/
def FaultTaken (i : Instr) (s : State) (f : Fault) (addr : Option Word) : Prop :=
  ∃ t, exec i s = .next t ∧
    t.halted = some { fault := f, pc := s.pc, opcode := some (encode i), addr := addr } ∧
    SameExcept [.halted] s t

/-- Whether an instruction may write a register: its destination Vx, VF where the instruction writes it as a flag, the
block V0 to Vx for FX65 (R15, R16). -/
def MayWriteV (i : Instr) (r : Reg) : Prop :=
  match i with
  | .ldByte x _ | .addByte x _ | .ldReg x _ | .orReg x _ | .andReg x _ | .xorReg x _ | .rndByte x _ | .ldVxDt x
  | .ldVxK x => r = x
  | .addReg x _ | .subReg x _ | .shrReg x _ | .subnReg x _ | .shlReg x _ => r = x ∨ r = 15
  | .drw _ _ _ => r = 15
  | .loadRegs x => r ≤ x
  | .cls | .ret | .jpAddr _ | .callAddr _ | .seByte _ _ | .sneByte _ _ | .seReg _ _ | .sneReg _ _ | .ldIAddr _
  | .jpV0 _ | .skp _ | .sknp _ | .ldDtVx _ | .ldStVx _ | .addIVx _ | .ldFVx _ | .ldBVx _ | .storeRegs _
  | .unsupported _ => False

/-- The row of the table of R62 for an instruction that ran from `s` to `t` and raised no fault; as numbers, so that no
sum overflows. -/
def NextPc (i : Instr) (s t : State) : Prop :=
  match i with
  | .jpAddr nnn | .callAddr nnn => t.pc.toNat = nnn.toNat
  | .jpV0 nnn => t.pc.toNat = (s.getV 0).toNat + nnn.toNat
  | .ret => ∃ k : Fin 16, k.val + 1 = s.sp.val ∧ t.pc = s.stack[k]
  | .seByte x nn => t.pc.toNat = s.pc.toNat + if s.getV x = nn then 4 else 2
  | .sneByte x nn => t.pc.toNat = s.pc.toNat + if s.getV x ≠ nn then 4 else 2
  | .seReg x y => t.pc.toNat = s.pc.toNat + if s.getV x = s.getV y then 4 else 2
  | .sneReg x y => t.pc.toNat = s.pc.toNat + if s.getV x ≠ s.getV y then 4 else 2
  | .skp x => t.pc.toNat = s.pc.toNat + if s.keyDown (lowNibble (s.getV x)) then 4 else 2
  | .sknp x => t.pc.toNat = s.pc.toNat + if s.keyDown (lowNibble (s.getV x)) then 2 else 4
  | .ldVxK _ => t.pc.toNat = s.pc.toNat + if ∀ k : Key, s.key[k] = false then 0 else 2
  | .cls | .ldByte _ _ | .addByte _ _ | .ldReg _ _ | .orReg _ _ | .andReg _ _ | .xorReg _ _ | .addReg _ _
  | .subReg _ _ | .shrReg _ _ | .subnReg _ _ | .shlReg _ _ | .ldIAddr _ | .rndByte _ _ | .drw _ _ _ | .ldVxDt _
  | .ldDtVx _ | .ldStVx _ | .addIVx _ | .ldFVx _ | .ldBVx _ | .storeRegs _ | .loadRegs _ | .unsupported _ =>
    t.pc.toNat = s.pc.toNat + 2

/-- The sprite of DXYN covers a pixel (R96, R97, R99): some row `r < N` of it, the byte at `I + r`, has the bit of
column `c`, bit 7 the leftmost, and the pixel is the one at `(Vx + c, Vy + r)` modulo the grid. -/
def SpriteCovers (s : State) (x y : Reg) (n : Fin 16) (px : Fin 64) (py : Fin 32) : Prop :=
  ∃ r c : Nat, r < n.val ∧ c < 8 ∧ (s.mem.peek (s.idx.toNat + r)).getLsbD (7 - c) = true ∧
    px.val = ((s.getV x).toNat + c) % 64 ∧ py.val = ((s.getV y).toNat + r) % 32

/-- Calls run one after another, none of them faulting. -/
def callChain : List Addr12 → State → Option State
  | [], s => some s
  | nnn :: rest, s =>
    match exec (.callAddr nnn) s with
    | .next t => if t.halted.isNone then callChain rest t else none
    | .fault _ => none
    | .refused _ => none

/-- The standard font, glyph by glyph and row by row (93_implementation_defined.md, part C), written out for the
statements. -/
def partCGlyphs : Vector (Vector Byte 5) 16 :=
  #v[#v[0xF0, 0x90, 0x90, 0x90, 0xF0], #v[0x20, 0x60, 0x20, 0x20, 0x70], #v[0xF0, 0x10, 0xF0, 0x80, 0xF0],
     #v[0xF0, 0x10, 0xF0, 0x10, 0xF0], #v[0x90, 0x90, 0xF0, 0x10, 0x10], #v[0xF0, 0x80, 0xF0, 0x10, 0xF0],
     #v[0xF0, 0x80, 0xF0, 0x90, 0xF0], #v[0xF0, 0x10, 0x20, 0x40, 0x40], #v[0xF0, 0x90, 0xF0, 0x90, 0xF0],
     #v[0xF0, 0x90, 0xF0, 0x10, 0xF0], #v[0xF0, 0x90, 0xF0, 0x90, 0x90], #v[0xE0, 0x90, 0xE0, 0x90, 0xE0],
     #v[0xF0, 0x80, 0x80, 0x80, 0xF0], #v[0xE0, 0x90, 0x90, 0x90, 0xE0], #v[0xF0, 0x80, 0xF0, 0x80, 0xF0],
     #v[0xF0, 0x80, 0xF0, 0x80, 0x80]]

end Sys2Proof.Machine

open Sys2Proof Sys2Proof.Machine

/-! ### Encoding -/

/-- R53, R50: words written out from the patterns of the table, at least one for each value of the top nibble (a
family, R12), decode to their instructions. -/
def Obligations.SpecWordsDecodeAsWritten : Prop :=
  decode true 0x00E0 = .cls ∧ decode false 0x00EE = .ret ∧ decode false 0x1ABC = .jpAddr 0xABC ∧
  decode false 0x2300 = .callAddr 0x300 ∧ decode false 0x3310 = .seByte 3 0x10 ∧
  decode false 0x4311 = .sneByte 3 0x11 ∧ decode false 0x5120 = .seReg 1 2 ∧
  decode false 0x6005 = .ldByte 0 0x05 ∧ decode false 0x720A = .addByte 2 0x0A ∧
  decode false 0x8014 = .addReg 0 1 ∧ decode false 0x9120 = .sneReg 1 2 ∧
  decode false 0xA300 = .ldIAddr 0x300 ∧ decode false 0xB201 = .jpV0 0x201 ∧
  decode false 0xCA55 = .rndByte 10 0x55 ∧ decode false 0xD01F = .drw 0 1 15 ∧ decode false 0xE19E = .skp 1 ∧
  decode false 0xF40A = .ldVxK 4 ∧ decode false 0xF255 = .storeRegs 2 ∧
  decode false 0x8018 = .unsupported 0x8018

/-- R53: for every well-formed instruction of every family, with its operands at every value, decoding its word gives
it back. -/
def Obligations.DecodeOfEncodeIsIdentity : Prop :=
  ∀ ext i, i.wf ext = true → decode ext (encode i) = i

/-- R53, R61: decoding is total, what it reads is well-formed, and encoding that gives the word back: no bit of a word
is dropped and no two words are one instruction. Of 8XY6 and 8XYE, whose Y field R86 and R88 ignore, this holds by the
model's choice to keep that field in the instruction (log entry 11). -/
def Obligations.EncodeOfDecodeIsIdentity : Prop :=
  ∀ ext op, (decode ext op).wf ext = true ∧ encode (decode ext op) = op

/-- R53: the decoder reads the first row of the table that matches, the catch-all when none does; and no word matches
two rows, so the order matters only for the catch-all. -/
def Obligations.DecodeFollowsOpcodeTable : Prop :=
  ∀ ext op,
    decode ext op = (match (opcodeRows ext).find? (·.hits op) with
      | some r => r.build op
      | none => .unsupported op) ∧
    (opcodeRows ext).Pairwise fun r q => ¬(r.hits op = true ∧ q.hits op = true)

/-- R55, R54: the unsupported words, by top nibble. -/
def Obligations.UnsupportedWordsAreTheListedOnes : Prop :=
  ∀ ext op, decode ext op = .unsupported op ↔
    (op.toNat / 4096 = 0x0 ∧ op ≠ 0x00EE ∧ ¬(ext = true ∧ op = 0x00E0)) ∨
    ((op.toNat / 4096 = 0x5 ∨ op.toNat / 4096 = 0x9) ∧ op.toNat % 16 ≠ 0) ∨
    (op.toNat / 4096 = 0x8 ∧ op.toNat % 16 ∈ [0x8, 0x9, 0xA, 0xB, 0xC, 0xD, 0xF]) ∨
    (op.toNat / 4096 = 0xE ∧ op.toNat % 256 ∉ [0x9E, 0xA1]) ∨
    (op.toNat / 4096 = 0xF ∧ op.toNat % 256 ∉ [0x07, 0x0A, 0x15, 0x18, 0x1E, 0x29, 0x33, 0x55, 0x65])

/-- R53, R61, R100 (decision D17): `EXT_CLS` decides the word 0x00E0 and no other. -/
def Obligations.ExtClsDecidesOnlyClearScreen : Prop :=
  decode true 0x00E0 = .cls ∧ decode false 0x00E0 = .unsupported 0x00E0 ∧
  ∀ op, op ≠ 0x00E0 → decode true op = decode false op

/-! ### The step cycle -/

/-- R58, R37: on a running machine with both bytes at `pc` in memory, a step is the decoded instruction, run in the
state as it is (it sets the next `pc` itself, R62); and bytes that are the word of a well-formed instruction run that
instruction. -/
def Obligations.StepRunsDecodedInstruction : Prop :=
  ∀ s : State, s.Running → s.pc.toNat + 1 < 4096 →
    step s = exec (decode s.cfg.extCls (s.mem.peek s.pc.toNat ++ s.mem.peek (s.pc.toNat + 1))) s ∧
    ∀ i, i.wf s.cfg.extCls = true → s.mem.peek s.pc.toNat ++ s.mem.peek (s.pc.toNat + 1) = encode i →
      step s = exec i s

/-- R60, R65 (decisions D1, D3): the fetch is the two bytes at `pc` with the first in bits 15:8, at any alignment; with
`pc` past memory, or only `pc + 1`, it raises the fetch fault with that address, and a step of a running machine there
faults so. That such a step answers a next state in which `halted` holds the fault is R65 by decision D1 (log entry 1).
-/
def Obligations.FetchIsTwoBytesBigEndianChecked : Prop :=
  (∀ (m : Memory) (pc : Word),
    (pc.toNat + 1 < 4096 → ∃ op, fetchWord m pc = .ok op ∧
      op.toNat = (m.peek pc.toNat).toNat * 256 + (m.peek (pc.toNat + 1)).toNat) ∧
    (pc.toNat = 0xFFF → fetchWord m pc =
      .error { fault := .memoryOutOfBounds .fetch, addr := some 0x1000 }) ∧
    (4096 ≤ pc.toNat → fetchWord m pc =
      .error { fault := .memoryOutOfBounds .fetch, addr := some pc })) ∧
  ∀ s : State, s.Running →
    (s.pc.toNat = 0xFFF → ∃ t r, step s = .next t ∧ t.halted = some r ∧
      r.fault = .memoryOutOfBounds .fetch ∧ r.addr = some 0x1000) ∧
    (4096 ≤ s.pc.toNat → ∃ t r, step s = .next t ∧ t.halted = some r ∧
      r.fault = .memoryOutOfBounds .fetch ∧ r.addr = some s.pc)

/-- R59 (decisions D1, D32): a step on a halted machine changes nothing and its result is `halted r`. -/
def Obligations.HaltedStepChangesNothing : Prop :=
  ∀ (s : State) r, s.halted = some r → step s = .next s ∧ stepFull s = .next (s, .halted r)

/-- R68: every step, from any state, answers a next state; the FX0A wait is a step that leaves `pc` where it is, not a
step that blocks. -/
def Obligations.StepAlwaysReturns : Prop :=
  (∀ s, ∃ t, step s = .next t) ∧
  ∀ s x, s.Running → fetchWord s.mem s.pc = .ok (encode (.ldVxK x)) → (∀ k : Key, s.key[k] = false) →
    ∃ t, step s = .next t ∧ t.pc = s.pc

/-- R66: a step changes DT only by FX15 and ST only by FX18, and never changes the keys; of all host operations only
`setKey` and `reset` do. -/
def Obligations.StepChangesTimersOnlyByTheirLoads : Prop :=
  (∀ s t, step s = .next t →
    t.key = s.key ∧
    (t.dt ≠ s.dt → ∃ op x, fetchWord s.mem s.pc = .ok op ∧ decode s.cfg.extCls op = .ldDtVx x) ∧
    (t.st ≠ s.st → ∃ op x, fetchWord s.mem s.pc = .ok op ∧ decode s.cfg.extCls op = .ldStVx x)) ∧
  ∀ c s, (callHost c s).1.key ≠ s.key → c = .reset ∨ ∃ k pressed, c = .setKey k pressed

/-- R64, R65 (decisions D1, D30): a step that halts a running machine commits nothing else, `pc` still addresses the
faulting instruction, and the record names `pc` and the word fetched there, none when the fetch failed. That nothing
is committed is the spec's decision D30, of which I13 warns (log entry 20). -/
def Obligations.FaultIsPreciseAndCommitsNothing : Prop :=
  ∀ s t r, s.Running → step s = .next t → t.halted = some r →
    t = { s with halted := some r } ∧ r.pc = s.pc ∧
    (∀ op, fetchWord s.mem s.pc = .ok op → r.opcode = some op) ∧
    (∀ e, fetchWord s.mem s.pc = .error e → r.opcode = none)

/-- R62: how each instruction sets the next `pc`, and that a step that raises a fault leaves it. -/
def Obligations.NextPcFollowsTheTable : Prop :=
  ∀ s t op, s.Running → fetchWord s.mem s.pc = .ok op → step s = .next t →
    (t.halted = none → NextPc (decode s.cfg.extCls op) s t) ∧ (t.halted ≠ none → t.pc = s.pc)

/-- R15, R16 (decision D9): an instruction writes no general register but its destination, and VF as a flag only
where R16 lists it; so every other instruction leaves VF unless it names it. -/
def Obligations.RegistersChangeOnlyAsNamed : Prop :=
  ∀ i s t r, exec i s = .next t → t.getV r ≠ s.getV r → MayWriteV i r

/-- R67 (decision D26): only CXNN reads the random byte. A step of anything else goes the same way whatever random
bytes are to come; `draws`, the model's counter of them (log entry 4), stays as it was. -/
def Obligations.OnlyRndReadsTheRandomByte : Prop :=
  ∀ s t d, (∀ op x nn, fetchWord s.mem s.pc = .ok op → decode s.cfg.extCls op ≠ .rndByte x nn) →
    step s = .next t → t.draws = s.draws ∧ step { s with draws := d } = .next { t with draws := d }

/-- R46, R140: a store is seen by the next fetch. FX55 that stores V0 and V1 at the address of the next instruction is
followed by the instruction whose word is V0, V1. -/
def Obligations.StoredInstructionRunsNext : Prop :=
  ∀ s x, s.Running → s.mem.wf = true → s.pc.toNat + 1 < 4096 → s.idx = s.pc + 2 → 1 ≤ x.val →
    s.idx.toNat + x.val < 4096 →
    s.mem.peek s.pc.toNat ++ s.mem.peek (s.pc.toNat + 1) = encode (.storeRegs x) →
    ∃ t, step s = .next t ∧ step t = exec (decode s.cfg.extCls (s.getV 0 ++ s.getV 1)) t

/-! ### Reset and the invariant -/

/-- R32 (decision D24 for `halted`): every field of the spec's table after reset. -/
def Obligations.ResetStateHasTheTableValues : Prop :=
  (∀ r, State.reset.getV r = 0) ∧ State.reset.pc = 0x0200 ∧ State.reset.idx = 0 ∧ State.reset.sp = 0 ∧
  (∀ k : Fin 16, State.reset.stack[k] = 0) ∧ State.reset.dt = 0 ∧ State.reset.st = 0 ∧
  (∀ a, State.reset.mem.peek a = 0) ∧ (∀ k : Key, State.reset.key[k] = false) ∧
  (∀ x y, State.reset.fb.get x y = false) ∧ State.reset.halted = none ∧ buzzer State.reset = false

/-- R131, R132, R133 (decisions D23, D24): the host's `reset` gives the constructed machine from any state, halted or
not, but for the count of random bytes drawn, which is no state of the block (log entry 17); twice is once. -/
def Obligations.ResetRestoresTheConstructedMachine : Prop :=
  ∀ s, callHost .reset s = ({ powerOn s.cfg with draws := s.draws }, .ok) ∧
    callHost .reset (callHost .reset s).1 = callHost .reset s ∧
    ∀ s', s'.cfg = s.cfg → s'.draws = s.draws → callHost .reset s' = callHost .reset s

/-- R33, R133: the invariant holds of a newly constructed machine in every configuration, and of `State.reset`. Beside
the bounds of R33 the invariant has the canonical form of memory, the model's own (log entry 6), and the form of a fault
record (R110, R65). -/
def Obligations.ConstructedMachineMeetsTheInvariant : Prop :=
  State.Inv State.reset ∧ ∀ cfg, State.Inv (powerOn cfg)

/-- R33: every step keeps the invariant: `I` at most 0x0FFF, `pc` at most 0x10FE, every stack slot at most 0x1000, memory
in canonical form inside its 4096 bytes (the model's own, log entry 6), and a fault record that is as R110 says and names
`pc` (R65). -/
def Obligations.StepKeepsTheInvariant : Prop :=
  ∀ s t, State.Inv s → step s = .next t → State.Inv t

/-- R33, R122: every host operation keeps the invariant, so it holds in every state that any interleaving of them
reaches from construction. Beside the bounds of R33 the invariant has the canonical form of memory, the model's own (log
entry 6), and the form of a fault record (R110, R65); the font write is an operation of its own (R135, log entry 13). -/
def Obligations.ReachableStatesMeetTheInvariant : Prop :=
  (∀ c s, State.Inv s → State.Inv (callHost c s).1) ∧ ∀ s, State.Reachable s → State.Inv s

/-- R118, R119 (decision D1): once halted, only `reset` ends it. Whatever other operations the host calls, the fault
record stays, and nothing changes but the timers, the keys and memory, which the host itself writes. -/
def Obligations.HaltedUntilReset : Prop :=
  ∀ calls s r, s.halted = some r → HostCall.reset ∉ calls →
    (runHost calls s).halted = some r ∧ SameExcept [.dt, .st, .key, .mem] s (runHost calls s)

/-! ### Control flow -/

/-- R69, 1NNN: its encoding, and `pc <- NNN` with nothing else changed. -/
def Obligations.JumpSetsPc : Prop :=
  RowDecodes 0xF000 0x1000 (fun op => .jpAddr (fieldNNN op)) ∧
  ∀ nnn s, ∃ t, exec (.jpAddr nnn) s = .next t ∧ t.pc.toNat = nnn.toNat ∧ SameExcept [.pc] s t

/-- R70, 2NNN with a free slot (decision D20 for the pushed address): the address after the call goes to slot `sp`,
`sp` counts it, `pc <- NNN`; the other slots and everything else are unchanged. -/
def Obligations.CallPushesReturnAddress : Prop :=
  RowDecodes 0xF000 0x2000 (fun op => .callAddr (fieldNNN op)) ∧
  ∀ nnn s, s.sp.val < 16 → ∃ t, exec (.callAddr nnn) s = .next t ∧
    (∀ k : Fin 16, t.stack[k] = if k.val = s.sp.val then s.pc + 2 else s.stack[k]) ∧
    t.sp.val = s.sp.val + 1 ∧ t.pc.toNat = nnn.toNat ∧ SameExcept [.stack, .sp, .pc] s t

/-- R111, R65 (decision D1 for the halt): 2NNN with all 16 slots taken raises `StackOverflow`: the stack, `sp` and
`pc` are unchanged and the machine halts. -/
def Obligations.CallWithFullStackOverflows : Prop :=
  ∀ nnn s, s.sp.val = 16 → FaultTaken (.callAddr nnn) s .stackOverflow none

/-- R71, R112, 00EE (decision D1 for the halt): with a slot taken, `sp` goes down and `pc` takes that slot's address,
and the slot keeps it; with none, `StackUnderflow`, and the machine halts with nothing else changed. -/
def Obligations.ReturnPopsOrUnderflows : Prop :=
  RowDecodes 0xFFFF 0x00EE (fun _ => .ret) ∧
  (∀ (s : State) (k : Fin 16), s.sp.val = k.val + 1 → ∃ t, exec .ret s = .next t ∧
    t.sp.val = k.val ∧ t.pc = s.stack[k] ∧ SameExcept [.sp, .pc] s t) ∧
  ∀ s : State, s.sp.val = 0 → FaultTaken .ret s .stackUnderflow none

/-- 95_test_vectors.md W3, R70, R71 (decision D20): a return from any later state with the call's stack lands on the
instruction after the call and leaves `sp` as before it. -/
def Obligations.ReturnLandsAfterTheCall : Prop :=
  ∀ nnn s, s.sp.val < 16 → ∃ t, exec (.callAddr nnn) s = .next t ∧
    ∀ u, u.sp = t.sp → u.stack = t.stack → ∃ w, exec .ret u = .next w ∧ w.pc = s.pc + 2 ∧ w.sp = s.sp

/-- 95_test_vectors.md W4, R70, R111: from an empty stack any sixteen calls succeed, each taking one slot, and a
seventeenth raises `StackOverflow`. -/
def Obligations.SixteenCallsSucceedSeventeenthFaults : Prop :=
  ∀ targets s, s.Running → s.sp.val = 0 → targets.length ≤ 16 → ∃ t, callChain targets s = some t ∧
    t.sp.val = targets.length ∧ t.Running ∧
    (targets.length = 16 → ∀ nnn, FaultTaken (.callAddr nnn) t .stackOverflow none)

/-- R72, R73, 3XNN and 4XNN: skip when Vx equals, or differs from, the immediate; only `pc` changes. -/
def Obligations.SkipOnImmediate : Prop :=
  RowDecodes 0xF000 0x3000 (fun op => .seByte (fieldX op) (fieldNN op)) ∧
  RowDecodes 0xF000 0x4000 (fun op => .sneByte (fieldX op) (fieldNN op)) ∧
  ∀ x nn s,
    (∃ t, exec (.seByte x nn) s = .next t ∧ (s.getV x = nn → t.pc = s.pc + 4) ∧
      (s.getV x ≠ nn → t.pc = s.pc + 2) ∧ SameExcept [.pc] s t) ∧
    (∃ t, exec (.sneByte x nn) s = .next t ∧ (s.getV x ≠ nn → t.pc = s.pc + 4) ∧
      (s.getV x = nn → t.pc = s.pc + 2) ∧ SameExcept [.pc] s t)

/-- R74, R75, 5XY0 and 9XY0: skip when Vx equals, or differs from, Vy; only `pc` changes. A word of these families
whose low nibble is not 0 is unsupported. -/
def Obligations.SkipOnRegisters : Prop :=
  RowDecodes 0xF00F 0x5000 (fun op => .seReg (fieldX op) (fieldY op)) ∧
  RowDecodes 0xF00F 0x9000 (fun op => .sneReg (fieldX op) (fieldY op)) ∧
  (∀ ext op, (op &&& 0xF000 = 0x5000 ∨ op &&& 0xF000 = 0x9000) → op &&& 0x000F ≠ 0 →
    decode ext op = .unsupported op) ∧
  ∀ x y s,
    (∃ t, exec (.seReg x y) s = .next t ∧ (s.getV x = s.getV y → t.pc = s.pc + 4) ∧
      (s.getV x ≠ s.getV y → t.pc = s.pc + 2) ∧ SameExcept [.pc] s t) ∧
    (∃ t, exec (.sneReg x y) s = .next t ∧ (s.getV x ≠ s.getV y → t.pc = s.pc + 4) ∧
      (s.getV x = s.getV y → t.pc = s.pc + 2) ∧ SameExcept [.pc] s t)

/-- R76, BNNN (decisions D19, D37): `pc <- V0 + NNN`, always V0, not masked; only `pc` changes. -/
def Obligations.ComputedJumpAddsV0 : Prop :=
  RowDecodes 0xF000 0xB000 (fun op => .jpV0 (fieldNNN op)) ∧
  ∀ nnn s, ∃ t, exec (.jpV0 nnn) s = .next t ∧ t.pc.toNat = (s.getV 0).toNat + nnn.toNat ∧
    t.pc.toNat ≤ 0x10FE ∧ SameExcept [.pc] s t

/-! ### Register loads and arithmetic -/

/-- R78, R79, 6XNN and 7XNN: Vx takes the immediate, or its 8-bit sum with it; no other register changes, VF
included unless it is Vx. -/
def Obligations.LoadAndAddImmediate : Prop :=
  RowDecodes 0xF000 0x6000 (fun op => .ldByte (fieldX op) (fieldNN op)) ∧
  RowDecodes 0xF000 0x7000 (fun op => .addByte (fieldX op) (fieldNN op)) ∧
  ∀ x nn s,
    (∃ t, exec (.ldByte x nn) s = .next t ∧ (∀ r, t.getV r = if r = x then nn else s.getV r) ∧
      t.pc = s.pc + 2 ∧ SameExcept [.v, .pc] s t) ∧
    (∃ t, exec (.addByte x nn) s = .next t ∧
      (∀ r, (t.getV r).toNat = if r = x then ((s.getV x).toNat + nn.toNat) % 256 else (s.getV r).toNat) ∧
      t.pc = s.pc + 2 ∧ SameExcept [.v, .pc] s t)

/-- R80 to R83, 8XY0 to 8XY3 (decisions D9, D41): copy, OR, AND and XOR bit by bit; VF is written only as Vx. -/
def Obligations.CopyAndLogicWriteOnlyVx : Prop :=
  RowDecodes 0xF00F 0x8000 (fun op => .ldReg (fieldX op) (fieldY op)) ∧
  RowDecodes 0xF00F 0x8001 (fun op => .orReg (fieldX op) (fieldY op)) ∧
  RowDecodes 0xF00F 0x8002 (fun op => .andReg (fieldX op) (fieldY op)) ∧
  RowDecodes 0xF00F 0x8003 (fun op => .xorReg (fieldX op) (fieldY op)) ∧
  ∀ x y s, ∀ p ∈ [(Instr.ldReg x y, fun _ b => b), (Instr.orReg x y, fun a b => a || b),
      (Instr.andReg x y, fun a b => a && b), (Instr.xorReg x y, fun (a b : Bool) => a != b)],
    ∃ t, exec p.1 s = .next t ∧
      (∀ k < 8, (t.getV x).getLsbD k = p.2 ((s.getV x).getLsbD k) ((s.getV y).getLsbD k)) ∧
      (∀ r, r ≠ x → t.getV r = s.getV r) ∧ t.pc = s.pc + 2 ∧ SameExcept [.v, .pc] s t

/-- R84, 8XY4: Vx takes the 8-bit sum and VF the carry, written last; both operands are the values before the step. -/
def Obligations.AddRegisterSetsCarry : Prop :=
  RowDecodes 0xF00F 0x8004 (fun op => .addReg (fieldX op) (fieldY op)) ∧
  ∀ x y s, ∃ t, exec (.addReg x y) s = .next t ∧
    (∀ r, (t.getV r).toNat =
      if r = 15 then (if (s.getV x).toNat + (s.getV y).toNat > 255 then 1 else 0)
      else if r = x then ((s.getV x).toNat + (s.getV y).toNat) % 256 else (s.getV r).toNat) ∧
    t.pc = s.pc + 2 ∧ SameExcept [.v, .pc] s t

/-- R85, R87, R77, 8XY5 and 8XY7 (decisions D38, D41): Vx takes the 8-bit difference and VF not-borrow, 1 on equal
operands, written last. -/
def Obligations.SubtractSetsNotBorrow : Prop :=
  RowDecodes 0xF00F 0x8005 (fun op => .subReg (fieldX op) (fieldY op)) ∧
  RowDecodes 0xF00F 0x8007 (fun op => .subnReg (fieldX op) (fieldY op)) ∧
  ∀ x y s, ∀ p ∈ [(Instr.subReg x y, s.getV x, s.getV y), (Instr.subnReg x y, s.getV y, s.getV x)],
    ∃ t, exec p.1 s = .next t ∧
      (∀ r, ((t.getV r).toNat : Int) =
        if r = 15 then (if p.2.1.toNat ≥ p.2.2.toNat then 1 else 0)
        else if r = x then ((p.2.1.toNat : Int) - p.2.2.toNat) % 256 else (s.getV r).toNat) ∧
      t.pc = s.pc + 2 ∧ SameExcept [.v, .pc] s t

/-- R86, R88, 8XY6 and 8XYE (decisions D8, D41): Vx shifts in place by one and VF takes the bit shifted out, written
last; whatever Y is, no other register changes. -/
def Obligations.ShiftSetsBitShiftedOut : Prop :=
  RowDecodes 0xF00F 0x8006 (fun op => .shrReg (fieldX op) (fieldY op)) ∧
  RowDecodes 0xF00F 0x800E (fun op => .shlReg (fieldX op) (fieldY op)) ∧
  ∀ x y s,
    (∃ t, exec (.shrReg x y) s = .next t ∧
      (∀ r, (t.getV r).toNat = if r = 15 then (s.getV x).toNat % 2
        else if r = x then (s.getV x).toNat / 2 else (s.getV r).toNat) ∧
      t.pc = s.pc + 2 ∧ SameExcept [.v, .pc] s t) ∧
    (∃ t, exec (.shlReg x y) s = .next t ∧
      (∀ r, (t.getV r).toNat = if r = 15 then (s.getV x).toNat / 128
        else if r = x then (s.getV x).toNat * 2 % 256 else (s.getV r).toNat) ∧
      t.pc = s.pc + 2 ∧ SameExcept [.v, .pc] s t)

/-- R89, CXNN (decision D26): Vx takes the step's random byte under the mask, whatever that byte is: the byte is the
free value `Config.rand` at the count of draws (log entry 4), and the count goes on by one. -/
def Obligations.RandomByteUnderMask : Prop :=
  RowDecodes 0xF000 0xC000 (fun op => .rndByte (fieldX op) (fieldNN op)) ∧
  ∀ x nn s, ∃ t, exec (.rndByte x nn) s = .next t ∧
    (∀ k < 8, (t.getV x).getLsbD k = ((Config.rand s.draws).getLsbD k && nn.getLsbD k)) ∧
    (∀ r, r ≠ x → t.getV r = s.getV r) ∧ t.draws = s.draws + 1 ∧ t.pc = s.pc + 2 ∧
    SameExcept [.v, .pc, .draws] s t

/-! ### Index register and memory -/

/-- R90, ANNN: `I <- NNN`, which is within 12 bits. -/
def Obligations.LoadIndex : Prop :=
  RowDecodes 0xF000 0xA000 (fun op => .ldIAddr (fieldNNN op)) ∧
  ∀ nnn s, ∃ t, exec (.ldIAddr nnn) s = .next t ∧ t.idx.toNat = nnn.toNat ∧ t.idx.toNat ≤ 0x0FFF ∧
    t.pc = s.pc + 2 ∧ SameExcept [.idx, .pc] s t

/-- R91, R92, FX1E and FX29 (decisions D12, D13, D14, D16): I takes its 12-bit sum with Vx, VF unchanged; or the
address of the glyph of Vx's low nibble, 5 bytes a glyph from 0x050, font installed or not. -/
def Obligations.AddIndexAndGlyphAddress : Prop :=
  RowDecodes 0xF0FF 0xF01E (fun op => .addIVx (fieldX op)) ∧
  RowDecodes 0xF0FF 0xF029 (fun op => .ldFVx (fieldX op)) ∧
  ∀ x s,
    (∃ t, exec (.addIVx x) s = .next t ∧ t.idx.toNat = (s.idx.toNat + (s.getV x).toNat) % 4096 ∧
      t.pc = s.pc + 2 ∧ SameExcept [.idx, .pc] s t) ∧
    (∃ t, exec (.ldFVx x) s = .next t ∧ t.idx.toNat = 0x050 + 5 * ((s.getV x).toNat % 16) ∧
      t.pc = s.pc + 2 ∧ SameExcept [.idx, .pc] s t)

/-- R93, FX33 with its three bytes inside memory (decision D39 for the order): hundreds, tens and ones of Vx at I, I +
1 and I + 2; every other byte reads as before and I is unchanged. -/
def Obligations.BcdStoresThreeDigits : Prop :=
  RowDecodes 0xF0FF 0xF033 (fun op => .ldBVx (fieldX op)) ∧
  ∀ x s, s.mem.wf = true → s.idx.toNat + 2 < 4096 → ∃ t, exec (.ldBVx x) s = .next t ∧
    (t.mem.peek s.idx.toNat).toNat = (s.getV x).toNat / 100 ∧
    (t.mem.peek (s.idx.toNat + 1)).toNat = (s.getV x).toNat / 10 % 10 ∧
    (t.mem.peek (s.idx.toNat + 2)).toNat = (s.getV x).toNat % 10 ∧
    (∀ a, (a < s.idx.toNat ∨ s.idx.toNat + 2 < a) → t.mem.peek a = s.mem.peek a) ∧
    t.pc = s.pc + 2 ∧ SameExcept [.mem, .pc] s t

/-- R94, FX55 with its block inside memory (decision D11 for I): V0 to Vx at I to I + X in order; every other byte
reads as before and I is unchanged. -/
def Obligations.StoreRegistersToMemory : Prop :=
  RowDecodes 0xF0FF 0xF055 (fun op => .storeRegs (fieldX op)) ∧
  ∀ x s, s.mem.wf = true → s.idx.toNat + x.val < 4096 → ∃ t, exec (.storeRegs x) s = .next t ∧
    (∀ k : Reg, k ≤ x → t.mem.peek (s.idx.toNat + k.val) = s.getV k) ∧
    (∀ a, (a < s.idx.toNat ∨ s.idx.toNat + x.val < a) → t.mem.peek a = s.mem.peek a) ∧
    t.pc = s.pc + 2 ∧ SameExcept [.mem, .pc] s t

/-- R95, FX65 with its block inside memory (decision D11 for I): V0 to Vx take the bytes at I to I + X in order; the
other registers, memory and I are unchanged. -/
def Obligations.LoadRegistersFromMemory : Prop :=
  RowDecodes 0xF0FF 0xF065 (fun op => .loadRegs (fieldX op)) ∧
  ∀ x s, s.idx.toNat + x.val < 4096 → ∃ t, exec (.loadRegs x) s = .next t ∧
    (∀ r : Reg, t.getV r = if r ≤ x then s.mem.peek (s.idx.toNat + r.val) else s.getV r) ∧
    t.pc = s.pc + 2 ∧ SameExcept [.v, .pc] s t

/-- R113, R65 (decisions D1, D3, and D30 with log entry 20): the memory primitives raise `MemoryOutOfBounds` with the
access kind and the address, at 4096 or more and only there. By the fetch the address is `pc` or `pc + 1`; by DXYN and
FX65 (`read`) and by FX33 and FX55 (`write`), in any state that meets the bound of `I` (R33), it is 0x1000. Each time
the machine halts with nothing else changed. -/
def Obligations.MemoryOutOfBoundsFaults : Prop :=
  (∀ kind m a, a < 65536 →
    (memRead kind m a = .error { fault := .memoryOutOfBounds kind, addr := some (BitVec.ofNat 16 a) } ↔ 4096 ≤ a)) ∧
  (∀ m a b, a < 65536 →
    (memWrite m a b = .error { fault := .memoryOutOfBounds .write, addr := some (BitVec.ofNat 16 a) } ↔ 4096 ≤ a)) ∧
  (∀ s : State, s.Running → 4095 ≤ s.pc.toNat → ∃ t, step s = .next t ∧ SameExcept [.halted] s t ∧
    t.halted = some { fault := .memoryOutOfBounds .fetch, pc := s.pc, opcode := none,
                      addr := some (if s.pc.toNat = 4095 then s.pc + 1 else s.pc) }) ∧
  ∀ s : State, s.idx.toNat ≤ 0x0FFF →
    (∀ x y n, 0 < n.val → 4096 ≤ s.idx.toNat + n.val - 1 →
      FaultTaken (.drw x y n) s (.memoryOutOfBounds .read) (some 0x1000)) ∧
    (∀ x, 4096 ≤ s.idx.toNat + x.val → FaultTaken (.loadRegs x) s (.memoryOutOfBounds .read) (some 0x1000)) ∧
    (∀ x, 4096 ≤ s.idx.toNat + x.val → FaultTaken (.storeRegs x) s (.memoryOutOfBounds .write) (some 0x1000)) ∧
    (∀ x, 4096 ≤ s.idx.toNat + 2 → FaultTaken (.ldBVx x) s (.memoryOutOfBounds .write) (some 0x1000))

/-- R35, R40, R42: any address below 4096 may be written, the reserved range included; a read then gives the byte last
written there and every other address reads as before; the canonical form of memory (log entry 6) is kept. -/
def Obligations.ReadGivesLastWrite : Prop :=
  ∀ (m : Memory) a b, m.wf = true → a < 4096 → ∃ m', memWrite m a b = .ok m' ∧ m'.wf = true ∧
    ∀ kind c, c < 4096 → memRead kind m' c = if c = a then .ok b else memRead kind m c

/-! ### Display -/

/-- R96, R97, R99, DXYN with its rows inside memory (decisions D5, D6, D7): a pixel changes when the sprite covers it
and not otherwise; VF is 1 when some pixel went from on to off and else 0; nothing else changes. N = 0 reads no
memory. -/
def Obligations.DrawTogglesTheCoveredPixels : Prop :=
  RowDecodes 0xF000 0xD000 (fun op => .drw (fieldX op) (fieldY op) (fieldN op)) ∧
  ∀ x y n s, (n.val = 0 ∨ s.idx.toNat + n.val - 1 < 4096) → ∃ t, exec (.drw x y n) s = .next t ∧
    (∀ px py, t.fb.get px py ≠ s.fb.get px py ↔ SpriteCovers s x y n px py) ∧
    ((∃ px py, s.fb.get px py = true ∧ t.fb.get px py = false) → t.getV 15 = 1) ∧
    ((¬∃ px py, s.fb.get px py = true ∧ t.fb.get px py = false) → t.getV 15 = 0) ∧
    (∀ r, r ≠ 15 → t.getV r = s.getV r) ∧ t.pc = s.pc + 2 ∧ SameExcept [.fb, .v, .pc] s t

/-- 95_test_vectors.md W5, R96 (90_conflicts.md C11): drawing the same sprite twice in the same place restores every
pixel; when no covered pixel was on, the first draw reports VF = 0 and the second VF = 1 if the sprite has a set bit.
VF is no coordinate here, since the first draw writes it. -/
def Obligations.DrawingTwiceRestoresTheScreen : Prop :=
  ∀ x y n s, x ≠ 15 → y ≠ 15 → (n.val = 0 ∨ s.idx.toNat + n.val - 1 < 4096) →
    ∃ t u, exec (.drw x y n) s = .next t ∧ exec (.drw x y n) t = .next u ∧
      (∀ px py, u.fb.get px py = s.fb.get px py) ∧
      ((∀ px py, SpriteCovers s x y n px py → s.fb.get px py = false) →
        t.getV 15 = 0 ∧ ((∃ px py, SpriteCovers s x y n px py) → u.getV 15 = 1) ∧
        ((¬∃ px py, SpriteCovers s x y n px py) → u.getV 15 = 0))

/-- R98: no pixel is toggled twice within one DXYN of at most 15 rows; so its pixels may be visited in any order, with
the same framebuffer and collision flag, and the flag says two things that are then the same: some pixel of the sprite
was on before, and some pixel that was on went off. -/
def Obligations.DrawOrderDoesNotMatter : Prop :=
  ∀ fb x0 y0 (rows : List Byte), rows.length ≤ 15 →
    let ps := spritePixels x0 y0 0 rows
    ps.Nodup ∧
    (∀ qs, qs.Perm ps → drawPixels fb qs = drawPixels fb ps) ∧
    ((drawPixels fb ps).2 = true ↔ ∃ p ∈ ps, fb.get p.1 p.2 = true) ∧
    ((drawPixels fb ps).2 = true ↔ ∃ px py, fb.get px py = true ∧ (drawPixels fb ps).1.get px py = false)

/-- R100, 00E0 (decision D17): under `EXT_CLS` every pixel is off and `pc` advances; without it, the instruction, which
no word then decodes to, acts as an unsupported one. VF and everything else are unchanged. -/
def Obligations.ClearScreenUnderExtCls : Prop :=
  ∀ s, ∃ t, exec .cls s = .next t ∧ t.pc = s.pc + 2 ∧
    (s.cfg.extCls = true → (∀ px py, t.fb.get px py = false) ∧ SameExcept [.fb, .pc] s t) ∧
    (s.cfg.extCls = false → SameExcept [.pc] s t)

/-! ### Keys and timers -/

/-- R101, R102, R103, EX9E and EXA1 (decision D14 for the low nibble): skip when the key that the low nibble of Vx
names is pressed, or is not; only `pc` changes. -/
def Obligations.SkipOnKey : Prop :=
  RowDecodes 0xF0FF 0xE09E (fun op => .skp (fieldX op)) ∧
  RowDecodes 0xF0FF 0xE0A1 (fun op => .sknp (fieldX op)) ∧
  ∀ x s (k : Key), k.val = (s.getV x).toNat % 16 →
    (∃ t, exec (.skp x) s = .next t ∧ (s.key[k] = true → t.pc = s.pc + 4) ∧
      (s.key[k] = false → t.pc = s.pc + 2) ∧ SameExcept [.pc] s t) ∧
    (∃ t, exec (.sknp x) s = .next t ∧ (s.key[k] = false → t.pc = s.pc + 4) ∧
      (s.key[k] = true → t.pc = s.pc + 2) ∧ SameExcept [.pc] s t)

/-- R104, FX0A (decisions D15, D36): with a key pressed Vx takes the lowest-numbered one and `pc` advances; with none,
the next state is the same state, so the instruction runs again. -/
def Obligations.WaitForKeyTakesLowestPressed : Prop :=
  RowDecodes 0xF0FF 0xF00A (fun op => .ldVxK (fieldX op)) ∧
  ∀ x s,
    (∀ k : Key, s.key[k] = true → (∀ j : Key, j < k → s.key[j] = false) → ∃ t, exec (.ldVxK x) s = .next t ∧
      (∀ r, (t.getV r).toNat = if r = x then k.val else (s.getV r).toNat) ∧
      t.pc = s.pc + 2 ∧ SameExcept [.v, .pc] s t) ∧
    ((∀ k : Key, s.key[k] = false) → exec (.ldVxK x) s = .next s ∧ completedResult (.ldVxK x) s = .waiting)

/-- R105, R106, R107, FX07, FX15 and FX18 (decision D40): Vx takes DT; DT takes Vx; ST takes Vx, and the buzzer (R25)
is then on just when Vx is not 0. -/
def Obligations.TimerMoves : Prop :=
  RowDecodes 0xF0FF 0xF007 (fun op => .ldVxDt (fieldX op)) ∧
  RowDecodes 0xF0FF 0xF015 (fun op => .ldDtVx (fieldX op)) ∧
  RowDecodes 0xF0FF 0xF018 (fun op => .ldStVx (fieldX op)) ∧
  ∀ x s,
    (∃ t, exec (.ldVxDt x) s = .next t ∧ (∀ r, t.getV r = if r = x then s.dt else s.getV r) ∧
      t.pc = s.pc + 2 ∧ SameExcept [.v, .pc] s t) ∧
    (∃ t, exec (.ldDtVx x) s = .next t ∧ t.dt = s.getV x ∧ t.pc = s.pc + 2 ∧ SameExcept [.dt, .pc] s t) ∧
    (∃ t, exec (.ldStVx x) s = .next t ∧ t.st = s.getV x ∧ buzzer t = decide (s.getV x ≠ 0) ∧
      t.pc = s.pc + 2 ∧ SameExcept [.st, .pc] s t)

/-! ### Unsupported words -/

/-- R114: an unsupported word is reported through the step's result, `pc` advances by 2, nothing else changes and the
machine keeps running; the instruction itself completes for every word. -/
def Obligations.UnsupportedWordIsSkippedWithDiagnostic : Prop :=
  (∀ op s, ∃ t, exec (.unsupported op) s = .next t ∧ t.pc = s.pc + 2 ∧ SameExcept [.pc] s t) ∧
  ∀ s op, s.Running → fetchWord s.mem s.pc = .ok op → decode s.cfg.extCls op = .unsupported op →
    ∃ t, stepFull s = .next (t, .unsupported op) ∧ t.pc = s.pc + 2 ∧ t.Running ∧ SameExcept [.pc] s t

/-! ### Host operations -/

/-- R57 (decision D34): the result of a step beside its next state, which is `step`'s. A machine that was halted
reports `halted`; a fault reported is the one recorded, and a halted next state is reported; `waiting` is FX0A with no
key pressed and changes nothing; `unsupported` carries the word at `pc`; and there is always a result. -/
def Obligations.StepResultMatchesTheStep : Prop :=
  ∀ s, ∃ t res, stepFull s = .next (t, res) ∧ step s = .next t ∧
    (∀ r, res = .halted r ↔ s.halted = some r) ∧
    (∀ r, res = .fault r ↔ s.Running ∧ t.halted = some r) ∧
    (res = .waiting ↔ s.Running ∧ (∀ k : Key, s.key[k] = false) ∧
      ∃ x, fetchWord s.mem s.pc = .ok (encode (.ldVxK x))) ∧
    (res = .waiting → t = s) ∧
    (∀ op, res = .unsupported op ↔ s.Running ∧ fetchWord s.mem s.pc = .ok op ∧
      decode s.cfg.extCls op = .unsupported op)

/-- R123 (decision D25 for the halted state), R23, R24: each timer goes down by one if it is not 0 and holds at 0,
nothing else changes, and 255 ticks bring both to 0. -/
def Obligations.TickCountsDownAndHolds : Prop :=
  (∀ s, (callHost .tickTimers s).2 = .ok ∧ SameExcept [.dt, .st] s (callHost .tickTimers s).1 ∧
    (callHost .tickTimers s).1.dt.toNat = s.dt.toNat - 1 ∧ (callHost .tickTimers s).1.st.toNat = s.st.toNat - 1) ∧
  ∀ s n, (runHost (List.replicate n .tickTimers) s).dt.toNat = s.dt.toNat - n ∧
    (runHost (List.replicate n .tickTimers) s).st.toNat = s.st.toNat - n

/-- R124: the buzzer is a read-only output equal to `ST > 0`, in every state. -/
def Obligations.BuzzerFollowsSoundTimer : Prop :=
  ∀ s, ∃ b, callHost .buzzer s = (s, .buzzing b) ∧ (b = true ↔ s.st.toNat > 0)

/-- R116, R125, R126: `setKey` writes one key and nothing else, and `getPixel` returns a pixel and changes nothing;
with an argument out of range both return `OutOfRange` and change no state. That the error of `getPixel` records both
coordinates is the model's choice (log entry 22), as is that arguments are integers (log entry 12). -/
def Obligations.KeyAndPixelAccessorsCheckTheirRange : Prop :=
  (∀ (k : Key) pressed s, ∃ t, callHost (.setKey k.val pressed) s = (t, .ok) ∧
    (∀ j : Key, t.key[j] = if j = k then pressed else s.key[j]) ∧ SameExcept [.key] s t) ∧
  (∀ (k : Int) pressed s, ¬(0 ≤ k ∧ k < 16) → callHost (.setKey k pressed) s = (s, .outOfRange [k])) ∧
  (∀ (x : Fin 64) (y : Fin 32) s, callHost (.getPixel x.val y.val) s = (s, .pixel (s.fb.get x y))) ∧
  (∀ (x y : Int) s, ¬(0 ≤ x ∧ x < 64) ∨ ¬(0 ≤ y ∧ y < 32) →
    callHost (.getPixel x y) s = (s, .outOfRange [x, y]))

/-- R134 (decision D27), R115: an image of at most 3584 bytes goes to 0x200 and up, byte by byte, and nothing else
changes, `pc` and `halted` included; a longer one is `LoadError` and changes nothing. -/
def Obligations.LoadCopiesTheImageOrRefusesIt : Prop :=
  (∀ image s, image.length ≤ 3584 → s.mem.wf = true → ∃ t, callHost (.load image) s = (t, .ok) ∧
    (∀ k (h : k < image.length), t.mem.peek (0x200 + k) = image[k]) ∧
    (∀ a, (a < 0x200 ∨ 0x200 + image.length ≤ a) → t.mem.peek a = s.mem.peek a) ∧ SameExcept [.mem] s t) ∧
  ∀ image s, 3584 < image.length → callHost (.load image) s = (s, .loadError image.length)

/-- R115: `LoadError` is returned when the image is longer than 3584 bytes, and only then; no byte is written and no
other field changes. -/
def Obligations.OversizedImageIsLoadError : Prop :=
  ∀ image s, ((callHost (.load image) s).2 = .loadError image.length ↔ image.length > 3584) ∧
    (image.length > 3584 → (callHost (.load image) s).1 = s)

/-- R135, R136, R41 (decision D16): after boot the machine is running at 0x200 with the image there; under
`FONT_INSTALLED` the glyphs of part C are at 0x050 and up, 5 bytes each, and without it memory below 0x200 is zero; the
invariant holds, the bounds of R33 and the model's own canonical form of memory (log entry 6). -/
def Obligations.BootPlacesFontAndImage : Prop :=
  ∀ cfg image, image.length ≤ 3584 → ∃ t, boot cfg image = (t, .ok) ∧ t.Running ∧ t.pc = 0x200 ∧ State.Inv t ∧
    (∀ k (h : k < image.length), t.mem.peek (0x200 + k) = image[k]) ∧
    (cfg.fontInstalled = true →
      ∀ (d : Fin 16) (r : Fin 5), t.mem.peek (0x050 + 5 * d.val + r.val) = partCGlyphs[d][r]) ∧
    (cfg.fontInstalled = false → ∀ a < 0x200, t.mem.peek a = 0)

/-- R135 (decision D16, log entry 13): the host's font write puts the glyphs of part C at 0x050 to 0x09F under
`FONT_INSTALLED` and changes no other byte and nothing else; without it nothing changes. After a reset it leaves the font
and zeros everywhere else. -/
def Obligations.InstallFontWritesTheGlyphs : Prop :=
  (∀ s, s.cfg.fontInstalled = true → s.mem.wf = true → ∃ t, callHost .installFont s = (t, .ok) ∧
    (∀ (d : Fin 16) (r : Fin 5), t.mem.peek (0x050 + 5 * d.val + r.val) = partCGlyphs[d][r]) ∧
    (∀ a, (a < 0x050 ∨ 0x09F < a) → t.mem.peek a = s.mem.peek a) ∧ SameExcept [.mem] s t) ∧
  (∀ s, s.cfg.fontInstalled = false → callHost .installFont s = (s, .ok)) ∧
  ∀ s, s.cfg.fontInstalled = true →
    (∀ (d : Fin 16) (r : Fin 5),
      (runHost [.reset, .installFont] s).mem.peek (0x050 + 5 * d.val + r.val) = partCGlyphs[d][r]) ∧
    ∀ a, (a < 0x050 ∨ 0x09F < a) → (runHost [.reset, .installFont] s).mem.peek a = 0
end

