-- ==== Sys2Proof/Laws/Decode.lean ====
section
/-! SUPPORT. Fields of packed words, words of fields, and the masks of the opcode table read as fields. -/

namespace Sys2Proof

/-! ### Fields as numbers -/

theorem nibble_val (op : Word) (lo : Nat) : (nibble op lo).val = op.toNat / 2 ^ lo % 16 := by
  simp [nibble, BitVec.extractLsb'_toNat, Nat.shiftRight_eq_div_pow]

theorem family_val (op : Word) : (family op).val = op.toNat / 4096 := by
  have := op.isLt
  rw [family, nibble_val]
  omega

theorem fieldX_val (op : Word) : (fieldX op).val = op.toNat / 256 % 16 := nibble_val op 8

theorem fieldY_val (op : Word) : (fieldY op).val = op.toNat / 16 % 16 := nibble_val op 4

theorem fieldN_val (op : Word) : (fieldN op).val = op.toNat % 16 := by
  rw [fieldN, nibble_val, Nat.pow_zero, Nat.div_one]

theorem fieldNN_toNat (op : Word) : (fieldNN op).toNat = op.toNat % 256 := by
  simp [fieldNN, BitVec.extractLsb'_toNat]

theorem fieldNNN_toNat (op : Word) : (fieldNNN op).toNat = op.toNat % 4096 := by
  simp [fieldNNN, BitVec.extractLsb'_toNat]

/-! ### Packed words as numbers -/

theorem packNibbles_toNat (f a b c : Fin 16) :
    (packNibbles f a b c).toNat = f.val * 4096 + a.val * 256 + b.val * 16 + c.val := by
  rw [packNibbles, BitVec.toNat_ofNat]
  omega

theorem packByte_toNat (f a : Fin 16) (nn : Byte) :
    (packByte f a nn).toNat = f.val * 4096 + a.val * 256 + nn.toNat := by
  have := nn.isLt
  rw [packByte, BitVec.toNat_ofNat]
  omega

theorem packAddr_toNat (f : Fin 16) (nnn : Addr12) : (packAddr f nnn).toNat = f.val * 4096 + nnn.toNat := by
  have := nnn.isLt
  rw [packAddr, BitVec.toNat_ofNat]
  omega

/-! ### The masks of R53 as fields -/

theorem land_F000 (a : Nat) : a &&& 0xF000 = 2 ^ 12 * (a / 2 ^ 12 % 2 ^ 4) := by
  apply Nat.eq_of_testBit_eq
  intro i
  rw [show 0xF000 = 2 ^ 12 * (2 ^ 4 - 1) by decide, Nat.testBit_and, Nat.testBit_two_pow_mul, Nat.testBit_two_pow_mul,
    Nat.testBit_two_pow_sub_one, Nat.testBit_mod_two_pow, Nat.testBit_div_two_pow]
  by_cases h : 12 ≤ i
  · rw [Nat.sub_add_cancel h, Bool.and_comm (decide (i - 12 < 4)), ← Bool.and_assoc, ← Bool.and_assoc,
      Bool.and_comm (a.testBit i)]
  · simp [h]

/-- A word under mask 0xF000: its family. -/
theorem and_F000 (op : Word) : (op &&& 0xF000).toNat = (family op).val * 4096 := by
  rw [BitVec.toNat_and, show (0xF000 : Word).toNat = 0xF000 from rfl, land_F000, family_val]
  have := op.isLt
  omega

/-- A word under mask 0xF000 and some low bits: its family, and the field of those bits. -/
theorem land_F000_or (a n : Nat) (hn : n ≤ 12) :
    a &&& (0xF000 ||| (2 ^ n - 1)) = 2 ^ 12 * (a / 2 ^ 12 % 2 ^ 4) + a % 2 ^ n := by
  have h : a % 2 ^ n < 2 ^ 12 :=
    Nat.lt_of_lt_of_le (Nat.mod_lt _ (Nat.two_pow_pos n)) (Nat.pow_le_pow_right (by decide) hn)
  rw [Nat.and_or_distrib_left, land_F000, Nat.and_two_pow_sub_one_eq_mod, ← Nat.two_pow_add_eq_or_of_lt h]

/-- A word under mask 0xF00F: its family and its low nibble. -/
theorem and_F00F (op : Word) : (op &&& 0xF00F).toNat = (family op).val * 4096 + (fieldN op).val := by
  rw [BitVec.toNat_and, show (0xF00F : Word).toNat = 0xF000 ||| (2 ^ 4 - 1) from rfl,
    land_F000_or _ _ (by decide), family_val, fieldN_val]
  have := op.isLt
  omega

/-- A word under mask 0xF0FF: its family and its low byte. -/
theorem and_F0FF (op : Word) : (op &&& 0xF0FF).toNat = (family op).val * 4096 + (fieldNN op).toNat := by
  rw [BitVec.toNat_and, show (0xF0FF : Word).toNat = 0xF000 ||| (2 ^ 8 - 1) from rfl,
    land_F000_or _ _ (by decide), family_val, fieldNN_toNat]
  have := op.isLt
  omega

theorem hits_F000 (op v : Word) (b : Word → Instr) :
    (OpRow.mk 0xF000 v b).hits op = decide (op.toNat / 4096 * 4096 = v.toNat) := by
  rw [OpRow.hits, Bool.eq_iff_iff, beq_iff_eq, decide_eq_true_eq, ← BitVec.toNat_inj, and_F000, family_val]

theorem hits_F00F (op v : Word) (b : Word → Instr) :
    (OpRow.mk 0xF00F v b).hits op = decide (op.toNat / 4096 * 4096 + op.toNat % 16 = v.toNat) := by
  rw [OpRow.hits, Bool.eq_iff_iff, beq_iff_eq, decide_eq_true_eq, ← BitVec.toNat_inj, and_F00F, family_val,
    fieldN_val]

theorem hits_F0FF (op v : Word) (b : Word → Instr) :
    (OpRow.mk 0xF0FF v b).hits op = decide (op.toNat / 4096 * 4096 + op.toNat % 256 = v.toNat) := by
  rw [OpRow.hits, Bool.eq_iff_iff, beq_iff_eq, decide_eq_true_eq, ← BitVec.toNat_inj, and_F0FF, family_val,
    fieldNN_toNat]

theorem hits_FFFF (op v : Word) (b : Word → Instr) :
    (OpRow.mk 0xFFFF v b).hits op = decide (op.toNat = v.toNat) := by
  have h : op &&& 0xFFFF = op := BitVec.and_allOnes (x := op)
  rw [OpRow.hits, Bool.eq_iff_iff, beq_iff_eq, decide_eq_true_eq, ← BitVec.toNat_inj, h]

/-! ### The decoder on bytes -/

/-- Two bytes are always an instruction (R49, R61). -/
theorem decodeBytes_cons (ext : Bool) (hi lo : Byte) (rest : List Byte) :
    decodeBytes ext (hi :: lo :: rest) = .ok (decode ext (hi ++ lo), rest) := rfl

/-- The two bytes of a word, put together big-endian, are the word (R37). -/
theorem wordBytes_append (op : Word) : (op.extractLsb' 8 8 ++ op.extractLsb' 0 8 : Word) = op := by
  ext k hk
  simp only [BitVec.getElem_append, BitVec.getElem_extractLsb']
  split
  · simp [BitVec.getLsbD_eq_getElem, hk]
  · rw [show 8 + (k - 8) = k by omega, BitVec.getLsbD_eq_getElem hk]

end Sys2Proof
end

