-- ==== Sys2Proof/Laws/State.lean ====
section
/-! SUPPORT. One lemma for each field of each update of the state, so that no proof unfolds a record update. -/

namespace Sys2Proof.Machine

/-! ### State.setV -/

@[simp] theorem State.setV_v (s : State) (r : Reg) (b : Byte) : (s.setV r b).v = s.v.set r b := rfl
@[simp] theorem State.setV_pc (s : State) (r : Reg) (b : Byte) : (s.setV r b).pc = s.pc := rfl
@[simp] theorem State.setV_idx (s : State) (r : Reg) (b : Byte) : (s.setV r b).idx = s.idx := rfl
@[simp] theorem State.setV_sp (s : State) (r : Reg) (b : Byte) : (s.setV r b).sp = s.sp := rfl
@[simp] theorem State.setV_stack (s : State) (r : Reg) (b : Byte) : (s.setV r b).stack = s.stack := rfl
@[simp] theorem State.setV_dt (s : State) (r : Reg) (b : Byte) : (s.setV r b).dt = s.dt := rfl
@[simp] theorem State.setV_st (s : State) (r : Reg) (b : Byte) : (s.setV r b).st = s.st := rfl
@[simp] theorem State.setV_mem (s : State) (r : Reg) (b : Byte) : (s.setV r b).mem = s.mem := rfl
@[simp] theorem State.setV_key (s : State) (r : Reg) (b : Byte) : (s.setV r b).key = s.key := rfl
@[simp] theorem State.setV_fb (s : State) (r : Reg) (b : Byte) : (s.setV r b).fb = s.fb := rfl
@[simp] theorem State.setV_halted (s : State) (r : Reg) (b : Byte) : (s.setV r b).halted = s.halted := rfl
@[simp] theorem State.setV_cfg (s : State) (r : Reg) (b : Byte) : (s.setV r b).cfg = s.cfg := rfl
@[simp] theorem State.setV_draws (s : State) (r : Reg) (b : Byte) : (s.setV r b).draws = s.draws := rfl

/-! ### State.setIdx -/

@[simp] theorem State.setIdx_v (s : State) (w : Word) : (s.setIdx w).v = s.v := rfl
@[simp] theorem State.setIdx_pc (s : State) (w : Word) : (s.setIdx w).pc = s.pc := rfl
@[simp] theorem State.setIdx_idx (s : State) (w : Word) : (s.setIdx w).idx = w &&& 0x0FFF := rfl
@[simp] theorem State.setIdx_sp (s : State) (w : Word) : (s.setIdx w).sp = s.sp := rfl
@[simp] theorem State.setIdx_stack (s : State) (w : Word) : (s.setIdx w).stack = s.stack := rfl
@[simp] theorem State.setIdx_dt (s : State) (w : Word) : (s.setIdx w).dt = s.dt := rfl
@[simp] theorem State.setIdx_st (s : State) (w : Word) : (s.setIdx w).st = s.st := rfl
@[simp] theorem State.setIdx_mem (s : State) (w : Word) : (s.setIdx w).mem = s.mem := rfl
@[simp] theorem State.setIdx_key (s : State) (w : Word) : (s.setIdx w).key = s.key := rfl
@[simp] theorem State.setIdx_fb (s : State) (w : Word) : (s.setIdx w).fb = s.fb := rfl
@[simp] theorem State.setIdx_halted (s : State) (w : Word) : (s.setIdx w).halted = s.halted := rfl
@[simp] theorem State.setIdx_cfg (s : State) (w : Word) : (s.setIdx w).cfg = s.cfg := rfl
@[simp] theorem State.setIdx_draws (s : State) (w : Word) : (s.setIdx w).draws = s.draws := rfl

/-! ### State.jump -/

@[simp] theorem State.jump_v (s : State) (target : Word) : (s.jump target).v = s.v := rfl
@[simp] theorem State.jump_pc (s : State) (target : Word) : (s.jump target).pc = target := rfl
@[simp] theorem State.jump_idx (s : State) (target : Word) : (s.jump target).idx = s.idx := rfl
@[simp] theorem State.jump_sp (s : State) (target : Word) : (s.jump target).sp = s.sp := rfl
@[simp] theorem State.jump_stack (s : State) (target : Word) : (s.jump target).stack = s.stack := rfl
@[simp] theorem State.jump_dt (s : State) (target : Word) : (s.jump target).dt = s.dt := rfl
@[simp] theorem State.jump_st (s : State) (target : Word) : (s.jump target).st = s.st := rfl
@[simp] theorem State.jump_mem (s : State) (target : Word) : (s.jump target).mem = s.mem := rfl
@[simp] theorem State.jump_key (s : State) (target : Word) : (s.jump target).key = s.key := rfl
@[simp] theorem State.jump_fb (s : State) (target : Word) : (s.jump target).fb = s.fb := rfl
@[simp] theorem State.jump_halted (s : State) (target : Word) : (s.jump target).halted = s.halted := rfl
@[simp] theorem State.jump_cfg (s : State) (target : Word) : (s.jump target).cfg = s.cfg := rfl
@[simp] theorem State.jump_draws (s : State) (target : Word) : (s.jump target).draws = s.draws := rfl

/-! ### State.advance -/

@[simp] theorem State.advance_v (s : State) : s.advance.v = s.v := rfl
@[simp] theorem State.advance_pc (s : State) : s.advance.pc = s.pc + 2 := rfl
@[simp] theorem State.advance_idx (s : State) : s.advance.idx = s.idx := rfl
@[simp] theorem State.advance_sp (s : State) : s.advance.sp = s.sp := rfl
@[simp] theorem State.advance_stack (s : State) : s.advance.stack = s.stack := rfl
@[simp] theorem State.advance_dt (s : State) : s.advance.dt = s.dt := rfl
@[simp] theorem State.advance_st (s : State) : s.advance.st = s.st := rfl
@[simp] theorem State.advance_mem (s : State) : s.advance.mem = s.mem := rfl
@[simp] theorem State.advance_key (s : State) : s.advance.key = s.key := rfl
@[simp] theorem State.advance_fb (s : State) : s.advance.fb = s.fb := rfl
@[simp] theorem State.advance_halted (s : State) : s.advance.halted = s.halted := rfl
@[simp] theorem State.advance_cfg (s : State) : s.advance.cfg = s.cfg := rfl
@[simp] theorem State.advance_draws (s : State) : s.advance.draws = s.draws := rfl

/-! ### State.skipIf -/

@[simp] theorem State.skipIf_v (s : State) (c : Bool) : (s.skipIf c).v = s.v := rfl
@[simp] theorem State.skipIf_pc (s : State) (c : Bool) : (s.skipIf c).pc = if c then s.pc + 4 else s.pc + 2 := rfl
@[simp] theorem State.skipIf_idx (s : State) (c : Bool) : (s.skipIf c).idx = s.idx := rfl
@[simp] theorem State.skipIf_sp (s : State) (c : Bool) : (s.skipIf c).sp = s.sp := rfl
@[simp] theorem State.skipIf_stack (s : State) (c : Bool) : (s.skipIf c).stack = s.stack := rfl
@[simp] theorem State.skipIf_dt (s : State) (c : Bool) : (s.skipIf c).dt = s.dt := rfl
@[simp] theorem State.skipIf_st (s : State) (c : Bool) : (s.skipIf c).st = s.st := rfl
@[simp] theorem State.skipIf_mem (s : State) (c : Bool) : (s.skipIf c).mem = s.mem := rfl
@[simp] theorem State.skipIf_key (s : State) (c : Bool) : (s.skipIf c).key = s.key := rfl
@[simp] theorem State.skipIf_fb (s : State) (c : Bool) : (s.skipIf c).fb = s.fb := rfl
@[simp] theorem State.skipIf_halted (s : State) (c : Bool) : (s.skipIf c).halted = s.halted := rfl
@[simp] theorem State.skipIf_cfg (s : State) (c : Bool) : (s.skipIf c).cfg = s.cfg := rfl
@[simp] theorem State.skipIf_draws (s : State) (c : Bool) : (s.skipIf c).draws = s.draws := rfl

/-! ### State.setVFlag -/

@[simp] theorem State.setVFlag_v (s : State) (x : Reg) (r : Byte × Bool) : (s.setVFlag x r).v = (s.v.set x r.1).set regF (flagByte r.2) := rfl
@[simp] theorem State.setVFlag_pc (s : State) (x : Reg) (r : Byte × Bool) : (s.setVFlag x r).pc = s.pc := rfl
@[simp] theorem State.setVFlag_idx (s : State) (x : Reg) (r : Byte × Bool) : (s.setVFlag x r).idx = s.idx := rfl
@[simp] theorem State.setVFlag_sp (s : State) (x : Reg) (r : Byte × Bool) : (s.setVFlag x r).sp = s.sp := rfl
@[simp] theorem State.setVFlag_stack (s : State) (x : Reg) (r : Byte × Bool) : (s.setVFlag x r).stack = s.stack := rfl
@[simp] theorem State.setVFlag_dt (s : State) (x : Reg) (r : Byte × Bool) : (s.setVFlag x r).dt = s.dt := rfl
@[simp] theorem State.setVFlag_st (s : State) (x : Reg) (r : Byte × Bool) : (s.setVFlag x r).st = s.st := rfl
@[simp] theorem State.setVFlag_mem (s : State) (x : Reg) (r : Byte × Bool) : (s.setVFlag x r).mem = s.mem := rfl
@[simp] theorem State.setVFlag_key (s : State) (x : Reg) (r : Byte × Bool) : (s.setVFlag x r).key = s.key := rfl
@[simp] theorem State.setVFlag_fb (s : State) (x : Reg) (r : Byte × Bool) : (s.setVFlag x r).fb = s.fb := rfl
@[simp] theorem State.setVFlag_halted (s : State) (x : Reg) (r : Byte × Bool) : (s.setVFlag x r).halted = s.halted := rfl
@[simp] theorem State.setVFlag_cfg (s : State) (x : Reg) (r : Byte × Bool) : (s.setVFlag x r).cfg = s.cfg := rfl
@[simp] theorem State.setVFlag_draws (s : State) (x : Reg) (r : Byte × Bool) : (s.setVFlag x r).draws = s.draws := rfl

/-! ### takeFault -/

@[simp] theorem takeFault_v (opcode : Option Word) (e : Trap) (s : State) : (takeFault opcode e s).v = s.v := rfl
@[simp] theorem takeFault_pc (opcode : Option Word) (e : Trap) (s : State) : (takeFault opcode e s).pc = s.pc := rfl
@[simp] theorem takeFault_idx (opcode : Option Word) (e : Trap) (s : State) : (takeFault opcode e s).idx = s.idx := rfl
@[simp] theorem takeFault_sp (opcode : Option Word) (e : Trap) (s : State) : (takeFault opcode e s).sp = s.sp := rfl
@[simp] theorem takeFault_stack (opcode : Option Word) (e : Trap) (s : State) : (takeFault opcode e s).stack = s.stack := rfl
@[simp] theorem takeFault_dt (opcode : Option Word) (e : Trap) (s : State) : (takeFault opcode e s).dt = s.dt := rfl
@[simp] theorem takeFault_st (opcode : Option Word) (e : Trap) (s : State) : (takeFault opcode e s).st = s.st := rfl
@[simp] theorem takeFault_mem (opcode : Option Word) (e : Trap) (s : State) : (takeFault opcode e s).mem = s.mem := rfl
@[simp] theorem takeFault_key (opcode : Option Word) (e : Trap) (s : State) : (takeFault opcode e s).key = s.key := rfl
@[simp] theorem takeFault_fb (opcode : Option Word) (e : Trap) (s : State) : (takeFault opcode e s).fb = s.fb := rfl
@[simp] theorem takeFault_halted (opcode : Option Word) (e : Trap) (s : State) : (takeFault opcode e s).halted = some (faultRecord opcode e s) := rfl
@[simp] theorem takeFault_cfg (opcode : Option Word) (e : Trap) (s : State) : (takeFault opcode e s).cfg = s.cfg := rfl
@[simp] theorem takeFault_draws (opcode : Option Word) (e : Trap) (s : State) : (takeFault opcode e s).draws = s.draws := rfl

/-! ### rndWith -/

@[simp] theorem rndWith_v (rand : Byte) (x : Reg) (nn : Byte) (s : State) : (rndWith rand x nn s).v = s.v.set x (rand &&& nn) := rfl
@[simp] theorem rndWith_pc (rand : Byte) (x : Reg) (nn : Byte) (s : State) : (rndWith rand x nn s).pc = s.pc + 2 := rfl
@[simp] theorem rndWith_idx (rand : Byte) (x : Reg) (nn : Byte) (s : State) : (rndWith rand x nn s).idx = s.idx := rfl
@[simp] theorem rndWith_sp (rand : Byte) (x : Reg) (nn : Byte) (s : State) : (rndWith rand x nn s).sp = s.sp := rfl
@[simp] theorem rndWith_stack (rand : Byte) (x : Reg) (nn : Byte) (s : State) : (rndWith rand x nn s).stack = s.stack := rfl
@[simp] theorem rndWith_dt (rand : Byte) (x : Reg) (nn : Byte) (s : State) : (rndWith rand x nn s).dt = s.dt := rfl
@[simp] theorem rndWith_st (rand : Byte) (x : Reg) (nn : Byte) (s : State) : (rndWith rand x nn s).st = s.st := rfl
@[simp] theorem rndWith_mem (rand : Byte) (x : Reg) (nn : Byte) (s : State) : (rndWith rand x nn s).mem = s.mem := rfl
@[simp] theorem rndWith_key (rand : Byte) (x : Reg) (nn : Byte) (s : State) : (rndWith rand x nn s).key = s.key := rfl
@[simp] theorem rndWith_fb (rand : Byte) (x : Reg) (nn : Byte) (s : State) : (rndWith rand x nn s).fb = s.fb := rfl
@[simp] theorem rndWith_halted (rand : Byte) (x : Reg) (nn : Byte) (s : State) : (rndWith rand x nn s).halted = s.halted := rfl
@[simp] theorem rndWith_cfg (rand : Byte) (x : Reg) (nn : Byte) (s : State) : (rndWith rand x nn s).cfg = s.cfg := rfl
@[simp] theorem rndWith_draws (rand : Byte) (x : Reg) (nn : Byte) (s : State) : (rndWith rand x nn s).draws = s.draws := rfl

/-! ### tickTimers -/

@[simp] theorem tickTimers_v (s : State) : (tickTimers s).v = s.v := rfl
@[simp] theorem tickTimers_pc (s : State) : (tickTimers s).pc = s.pc := rfl
@[simp] theorem tickTimers_idx (s : State) : (tickTimers s).idx = s.idx := rfl
@[simp] theorem tickTimers_sp (s : State) : (tickTimers s).sp = s.sp := rfl
@[simp] theorem tickTimers_stack (s : State) : (tickTimers s).stack = s.stack := rfl
@[simp] theorem tickTimers_dt (s : State) : (tickTimers s).dt = tickDown s.dt := rfl
@[simp] theorem tickTimers_st (s : State) : (tickTimers s).st = tickDown s.st := rfl
@[simp] theorem tickTimers_mem (s : State) : (tickTimers s).mem = s.mem := rfl
@[simp] theorem tickTimers_key (s : State) : (tickTimers s).key = s.key := rfl
@[simp] theorem tickTimers_fb (s : State) : (tickTimers s).fb = s.fb := rfl
@[simp] theorem tickTimers_halted (s : State) : (tickTimers s).halted = s.halted := rfl
@[simp] theorem tickTimers_cfg (s : State) : (tickTimers s).cfg = s.cfg := rfl
@[simp] theorem tickTimers_draws (s : State) : (tickTimers s).draws = s.draws := rfl

/-! ### loadImage -/

@[simp] theorem loadImage_v (image : List Byte) (s : State) : (loadImage image s).v = s.v := rfl
@[simp] theorem loadImage_pc (image : List Byte) (s : State) : (loadImage image s).pc = s.pc := rfl
@[simp] theorem loadImage_idx (image : List Byte) (s : State) : (loadImage image s).idx = s.idx := rfl
@[simp] theorem loadImage_sp (image : List Byte) (s : State) : (loadImage image s).sp = s.sp := rfl
@[simp] theorem loadImage_stack (image : List Byte) (s : State) : (loadImage image s).stack = s.stack := rfl
@[simp] theorem loadImage_dt (image : List Byte) (s : State) : (loadImage image s).dt = s.dt := rfl
@[simp] theorem loadImage_st (image : List Byte) (s : State) : (loadImage image s).st = s.st := rfl
@[simp] theorem loadImage_mem (image : List Byte) (s : State) : (loadImage image s).mem = s.mem.pokeAll loadAddr image := rfl
@[simp] theorem loadImage_key (image : List Byte) (s : State) : (loadImage image s).key = s.key := rfl
@[simp] theorem loadImage_fb (image : List Byte) (s : State) : (loadImage image s).fb = s.fb := rfl
@[simp] theorem loadImage_halted (image : List Byte) (s : State) : (loadImage image s).halted = s.halted := rfl
@[simp] theorem loadImage_cfg (image : List Byte) (s : State) : (loadImage image s).cfg = s.cfg := rfl
@[simp] theorem loadImage_draws (image : List Byte) (s : State) : (loadImage image s).draws = s.draws := rfl

/-! ### hardReset -/

@[simp] theorem hardReset_v (s : State) : (hardReset s).v = State.reset.v := rfl
@[simp] theorem hardReset_pc (s : State) : (hardReset s).pc = State.reset.pc := rfl
@[simp] theorem hardReset_idx (s : State) : (hardReset s).idx = State.reset.idx := rfl
@[simp] theorem hardReset_sp (s : State) : (hardReset s).sp = State.reset.sp := rfl
@[simp] theorem hardReset_stack (s : State) : (hardReset s).stack = State.reset.stack := rfl
@[simp] theorem hardReset_dt (s : State) : (hardReset s).dt = State.reset.dt := rfl
@[simp] theorem hardReset_st (s : State) : (hardReset s).st = State.reset.st := rfl
@[simp] theorem hardReset_mem (s : State) : (hardReset s).mem = State.reset.mem := rfl
@[simp] theorem hardReset_key (s : State) : (hardReset s).key = State.reset.key := rfl
@[simp] theorem hardReset_fb (s : State) : (hardReset s).fb = State.reset.fb := rfl
@[simp] theorem hardReset_halted (s : State) : (hardReset s).halted = State.reset.halted := rfl
@[simp] theorem hardReset_cfg (s : State) : (hardReset s).cfg = s.cfg := rfl
@[simp] theorem hardReset_draws (s : State) : (hardReset s).draws = s.draws := rfl

/-! ### Reading a register after an update -/

@[simp] theorem State.setIdx_getV (s : State) (w : Word) (q : Reg) : (s.setIdx w).getV q = s.getV q := rfl
@[simp] theorem State.jump_getV (s : State) (target : Word) (q : Reg) : (s.jump target).getV q = s.getV q := rfl
@[simp] theorem State.advance_getV (s : State) (q : Reg) : s.advance.getV q = s.getV q := rfl
@[simp] theorem State.skipIf_getV (s : State) (c : Bool) (q : Reg) : (s.skipIf c).getV q = s.getV q := rfl
@[simp] theorem takeFault_getV (opcode : Option Word) (e : Trap) (s : State) (q : Reg) : (takeFault opcode e s).getV q = s.getV q := rfl
@[simp] theorem tickTimers_getV (s : State) (q : Reg) : (tickTimers s).getV q = s.getV q := rfl
@[simp] theorem loadImage_getV (image : List Byte) (s : State) (q : Reg) : (loadImage image s).getV q = s.getV q := rfl

theorem State.getV_eq (s : State) (r : Reg) : s.getV r = s.v[r] := rfl

/-- What a register holds after a write. -/
@[simp] theorem State.setV_getV (s : State) (r q : Reg) (b : Byte) :
    (s.setV r b).getV q = if q = r then b else s.getV q := by
  simp only [State.getV, State.setV, Fin.getElem_fin, Vector.getElem_set, Fin.ext_iff, eq_comm (a := r.val)]

/-- What a register holds after a result and its flag are written: the flag stays when both go to VF (R17). -/
@[simp] theorem State.setVFlag_getV (s : State) (x q : Reg) (r : Byte × Bool) :
    (s.setVFlag x r).getV q = if q = regF then flagByte r.2 else if q = x then r.1 else s.getV q := by
  simp only [State.setVFlag, State.setV_getV]

@[simp] theorem rndWith_getV (rand : Byte) (x q : Reg) (nn : Byte) (s : State) :
    (rndWith rand x nn s).getV q = if q = x then rand &&& nn else s.getV q := by
  simp only [rndWith, State.advance_getV, State.setV_getV]

@[simp] theorem hardReset_getV (s : State) (q : Reg) : (hardReset s).getV q = 0 := by
  simp [State.getV, State.reset]

/-! ### The frame -/

/-- Nothing changed in any part. -/
theorem SameExcept.refl (ps : List Part) (s : State) : SameExcept ps s s := by
  constructor <;> intros <;> rfl

/-- A frame that excepts fewer parts is stronger. -/
theorem SameExcept.weaken {ps qs : List Part} {s t : State} (h : SameExcept ps s t) (hs : ∀ p ∈ ps, p ∈ qs) :
    SameExcept qs s t :=
  ⟨fun n => h.v fun m => n (hs _ m), fun n => h.pc fun m => n (hs _ m), fun n => h.idx fun m => n (hs _ m),
    fun n => h.sp fun m => n (hs _ m), fun n => h.stack fun m => n (hs _ m), fun n => h.dt fun m => n (hs _ m),
    fun n => h.st fun m => n (hs _ m), fun n => h.mem fun m => n (hs _ m), fun n => h.key fun m => n (hs _ m),
    fun n => h.fb fun m => n (hs _ m), fun n => h.halted fun m => n (hs _ m), fun n => h.draws fun m => n (hs _ m),
    h.cfg⟩

/-- Frames compose. -/
theorem SameExcept.trans {ps : List Part} {s t u : State} (h : SameExcept ps s t) (k : SameExcept ps t u) :
    SameExcept ps s u :=
  ⟨fun n r => (k.v n r).trans (h.v n r), fun n => (k.pc n).trans (h.pc n), fun n => (k.idx n).trans (h.idx n),
    fun n => (k.sp n).trans (h.sp n), fun n j => (k.stack n j).trans (h.stack n j),
    fun n => (k.dt n).trans (h.dt n), fun n => (k.st n).trans (h.st n), fun n a => (k.mem n a).trans (h.mem n a),
    fun n j => (k.key n j).trans (h.key n j), fun n x y => (k.fb n x y).trans (h.fb n x y),
    fun n => (k.halted n).trans (h.halted n), fun n => (k.draws n).trans (h.draws n), k.cfg.trans h.cfg⟩

end Sys2Proof.Machine
end

