-- ==== Sys2Proof/Laws/Memory.lean ====
section
/-! SUPPORT. What each memory operation does: a read after a write, the canonical form kept, and blocks. -/

namespace Sys2Proof.Machine

/-! ### One byte -/

theorem Memory.wfFrom_mono {lo lo' : Nat} {m : Memory} (h : m.wfFrom lo' = true) (hl : lo ≤ lo') :
    m.wfFrom lo = true := by
  cases m with
  | nil => rfl
  | cons c m =>
    simp only [Memory.wfFrom, Bool.and_eq_true, decide_eq_true_eq] at h ⊢
    exact ⟨⟨⟨hl.trans h.1.1.1, h.1.1.2⟩, h.1.2⟩, h.2⟩

/-- Below the first listed address every byte reads as 0x00. -/
theorem Memory.peek_below {lo : Nat} {m : Memory} (h : m.wfFrom lo = true) {a : Nat} (ha : a < lo) :
    m.peek a = 0 := by
  induction m generalizing lo with
  | nil => rfl
  | cons c m ih =>
    obtain ⟨k, b⟩ := c
    simp only [Memory.wfFrom, Bool.and_eq_true, decide_eq_true_eq] at h
    rw [Memory.peek, if_neg (by omega)]
    exact ih h.2 (by omega)

/-- A write keeps the canonical form. -/
theorem Memory.poke_wfFrom {lo : Nat} {m : Memory} (h : m.wfFrom lo = true) {a : Nat} (b : Byte) (hl : lo ≤ a)
    (ha : a < memSize) : (m.poke a b).wfFrom lo = true := by
  induction m generalizing lo with
  | nil =>
    simp only [Memory.poke]
    split <;> simp_all [Memory.wfFrom]
  | cons c m ih =>
    obtain ⟨k, d⟩ := c
    have h' := h
    simp only [Memory.wfFrom, Bool.and_eq_true, decide_eq_true_eq] at h
    obtain ⟨⟨⟨h1, h2⟩, h3⟩, h4⟩ := h
    simp only [Memory.poke]
    split
    · rename_i hk
      simp only [Memory.wfFrom, Bool.and_eq_true, decide_eq_true_eq]
      exact ⟨⟨⟨h1, h2⟩, h3⟩, ih h4 hk⟩
    · rename_i hk
      have hrest : ((if k = a then m else (k, d) :: m) : Memory).wfFrom (a + 1) = true := by
        split
        · rename_i he
          exact he ▸ h4
        · simp only [Memory.wfFrom, Bool.and_eq_true, decide_eq_true_eq]
          exact ⟨⟨⟨by omega, h2⟩, h3⟩, h4⟩
      split
      · exact Memory.wfFrom_mono hrest (by omega)
      · rename_i hb
        simp only [Memory.wfFrom, Bool.and_eq_true, decide_eq_true_eq]
        exact ⟨⟨⟨hl, ha⟩, hb⟩, hrest⟩

theorem Memory.poke_wf {m : Memory} (h : m.wf = true) {a : Nat} (b : Byte) (ha : a < memSize) :
    (m.poke a b).wf = true :=
  Memory.poke_wfFrom h b (Nat.zero_le _) ha

/-- A read of an address other than the one written gives what it gave before. -/
theorem Memory.peek_poke_ne (m : Memory) {a c : Nat} (b : Byte) (h : c ≠ a) : (m.poke a b).peek c = m.peek c := by
  induction m with
  | nil =>
    simp only [Memory.poke]
    split
    · rfl
    · simp [Memory.peek, Ne.symm h]
  | cons d m ih =>
    obtain ⟨k, d⟩ := d
    simp only [Memory.poke]
    split
    · simp only [Memory.peek, ih]
    · by_cases hk : k = a
      · subst hk
        simp only [if_true]
        split <;> simp [Memory.peek, Ne.symm h]
      · simp only [if_neg hk]
        split <;> simp [Memory.peek, Ne.symm h]

theorem Memory.peek_poke_same_from {lo : Nat} {m : Memory} (h : m.wfFrom lo = true) (a : Nat) (b : Byte) :
    (m.poke a b).peek a = b := by
  induction m generalizing lo with
  | nil =>
    simp only [Memory.poke]
    split <;> simp_all [Memory.peek]
  | cons c m ih =>
    obtain ⟨k, d⟩ := c
    simp only [Memory.wfFrom, Bool.and_eq_true, decide_eq_true_eq] at h
    simp only [Memory.poke]
    split
    · rename_i hk
      rw [Memory.peek, if_neg (by omega)]
      exact ih h.2
    · rename_i hk
      split
      · rename_i hb
        subst hb
        split
        · rename_i he
          exact Memory.peek_below h.2 (by omega)
        · rw [Memory.peek, if_neg (by assumption)]
          exact Memory.peek_below h.2 (by omega)
      · simp [Memory.peek]

/-- A read of the address written gives the byte written. -/
theorem Memory.peek_poke_same {m : Memory} (h : m.wf = true) (a : Nat) (b : Byte) : (m.poke a b).peek a = b :=
  Memory.peek_poke_same_from h a b

theorem Memory.peek_poke {m : Memory} (h : m.wf = true) (a c : Nat) (b : Byte) :
    (m.poke a b).peek c = if c = a then b else m.peek c := by
  split
  · subst_vars
    exact Memory.peek_poke_same h _ b
  · exact Memory.peek_poke_ne m b (by assumption)

/-! ### The checked accesses (R35) -/

theorem memRead_ok {kind : AccessKind} {m : Memory} {a : Nat} (h : a < memSize) :
    memRead kind m a = .ok (m.peek a) := if_pos h

theorem memRead_error {kind : AccessKind} {m : Memory} {a : Nat} (h : memSize ≤ a) :
    memRead kind m a = .error (outOfBounds kind a) := if_neg (by omega)

theorem memWrite_ok {m : Memory} {a : Nat} {b : Byte} (h : a < memSize) : memWrite m a b = .ok (m.poke a b) :=
  if_pos h

theorem memWrite_error {m : Memory} {a : Nat} {b : Byte} (h : memSize ≤ a) :
    memWrite m a b = .error (outOfBounds .write a) := if_neg (by omega)

/-- A write that is not out of bounds keeps the canonical form. -/
theorem memWrite_wf {m m' : Memory} {a : Nat} {b : Byte} (h : m.wf = true) (hw : memWrite m a b = .ok m') :
    m'.wf = true := by
  simp only [memWrite] at hw
  split at hw
  · rename_i ha
    cases hw
    exact Memory.poke_wf h b ha
  · cases hw

theorem Memory.pokeIn_wf {m : Memory} (h : m.wf = true) (a : Nat) (b : Byte) : (m.pokeIn a b).wf = true := by
  simp only [Memory.pokeIn]
  split
  · exact Memory.poke_wf h b (by assumption)
  · exact h

/-! ### Fetch (R60) -/

/-- The fetch inside memory: the byte at `pc` in bits 15:8, the next one in bits 7:0. -/
theorem fetchWord_ok {m : Memory} {pc : Word} (h : pc.toNat + 1 < memSize) :
    fetchWord m pc = .ok (m.peek pc.toNat ++ m.peek (pc.toNat + 1)) := by
  simp only [fetchWord, memRead_ok (Nat.lt_of_succ_lt h), memRead_ok h]

/-- The fetch with `pc` past memory. -/
theorem fetchWord_error_pc {m : Memory} {pc : Word} (h : memSize ≤ pc.toNat) :
    fetchWord m pc = .error (outOfBounds .fetch pc.toNat) := by
  simp only [fetchWord, memRead_error h]

/-- The fetch with only the second byte past memory. -/
theorem fetchWord_error_next {m : Memory} {pc : Word} (h : pc.toNat < memSize) (h' : memSize ≤ pc.toNat + 1) :
    fetchWord m pc = .error (outOfBounds .fetch (pc.toNat + 1)) := by
  simp only [fetchWord, memRead_ok h, memRead_error h']

/-- A fetch that succeeds had both of its bytes inside memory. -/
theorem fetchWord_ok_bound {m : Memory} {pc : Word} {op : Word} (h : fetchWord m pc = .ok op) :
    pc.toNat + 1 < memSize := by
  by_contra hn
  rcases Nat.lt_or_ge pc.toNat memSize with h1 | h1
  · rw [fetchWord_error_next h1 (by omega)] at h
    cases h
  · rw [fetchWord_error_pc h1] at h
    cases h

/-- A fetch that fails raises the fetch fault, with the first address past memory. -/
theorem fetchWord_error_eq {m : Memory} {pc : Word} {e : Trap} (h : fetchWord m pc = .error e) :
    memSize ≤ pc.toNat + 1 ∧ e = outOfBounds .fetch (if pc.toNat < memSize then pc.toNat + 1 else pc.toNat) := by
  rcases Nat.lt_or_ge (pc.toNat + 1) memSize with h1 | h1
  · rw [fetchWord_ok h1] at h
    cases h
  · refine ⟨h1, ?_⟩
    rcases Nat.lt_or_ge pc.toNat memSize with h2 | h2
    · rw [fetchWord_error_next h2 h1] at h
      cases h
      rw [if_pos h2]
    · rw [fetchWord_error_pc h2] at h
      cases h
      rw [if_neg (by omega)]

/-! ### Blocks -/

/-- Reading a block inside memory gives its bytes in order. -/
theorem readBlock_ok {m : Memory} {a n : Nat} (h : a + n ≤ memSize) :
    readBlock m a n = .ok ((List.range n).map fun k => m.peek (a + k)) := by
  induction n generalizing a with
  | zero => rfl
  | succ n ih =>
    rw [readBlock, memRead_ok (by omega), ih (by omega)]
    simp [List.range_succ_eq_map, Function.comp_def, Nat.add_assoc, Nat.add_comm 1]

/-- Reading a block that reaches past memory faults at the first address that does. -/
theorem readBlock_error {m : Memory} {a n : Nat} (hn : 0 < n) (h : memSize < a + n) :
    readBlock m a n = .error (outOfBounds .read (max a memSize)) := by
  induction n generalizing a with
  | zero => omega
  | succ n ih =>
    rcases Nat.lt_or_ge a memSize with h1 | h1
    · rw [readBlock, memRead_ok h1]
      simp only [ih (show 0 < n by omega) (show memSize < a + 1 + n by omega)]
      rw [Nat.max_eq_right (show a + 1 ≤ memSize by omega), Nat.max_eq_right (Nat.le_of_lt h1)]
    · rw [readBlock, memRead_error h1, Nat.max_eq_left h1]

/-- Writing a block inside memory puts its bytes in order and nothing else, and keeps the canonical form. -/
theorem writeBlock_ok {m : Memory} (hm : m.wf = true) {a : Nat} {bs : List Byte} (h : a + bs.length ≤ memSize) :
    ∃ m', writeBlock m a bs = .ok m' ∧ m'.wf = true ∧
      ∀ c, m'.peek c = if h : a ≤ c ∧ c < a + bs.length then bs[c - a]'(by omega) else m.peek c := by
  induction bs generalizing a m with
  | nil => exact ⟨m, rfl, hm, fun c => by rw [dif_neg]; simp⟩
  | cons b bs ih =>
    simp only [List.length_cons] at h
    obtain ⟨m', h1, h2, h3⟩ := ih (m := m.poke a b) (a := a + 1) (Memory.poke_wf hm b (by omega)) (by omega)
    refine ⟨m', ?_, h2, fun c => ?_⟩
    · rw [writeBlock, memWrite_ok (by omega)]
      exact h1
    · rw [h3, Memory.peek_poke hm]
      rcases Nat.lt_trichotomy c a with hc | hc | hc
      · rw [dif_neg (by omega), if_neg (by omega), dif_neg (by omega)]
      · subst hc
        rw [dif_neg (by omega), if_pos rfl, dif_pos (by simp)]
        simp
      · by_cases hc2 : c < a + 1 + bs.length
        · rw [dif_pos (by omega), dif_pos (by simp; omega)]
          obtain ⟨d, rfl⟩ : ∃ d, c = a + 1 + d := ⟨c - a - 1, by omega⟩
          have e : a + 1 + d - a = d + 1 := by omega
          simp [e]
        · rw [dif_neg (by omega), if_neg (by omega), dif_neg (by simp; omega)]

/-- Writing a block inside memory, whatever the form of the memory: every other byte reads as before. -/
theorem writeBlock_ok_frame {m : Memory} {a : Nat} {bs : List Byte} (h : a + bs.length ≤ memSize) :
    ∃ m', writeBlock m a bs = .ok m' ∧ ∀ c, (c < a ∨ a + bs.length ≤ c) → m'.peek c = m.peek c := by
  induction bs generalizing a m with
  | nil => exact ⟨m, rfl, fun c _ => rfl⟩
  | cons b bs ih =>
    simp only [List.length_cons] at h
    obtain ⟨m', h1, h3⟩ := ih (m := m.poke a b) (a := a + 1) (by omega)
    refine ⟨m', ?_, fun c hc => ?_⟩
    · rw [writeBlock, memWrite_ok (by omega)]
      exact h1
    · simp only [List.length_cons] at hc
      rw [h3 c (by omega), Memory.peek_poke_ne _ _ (by omega)]

/-- Writing a block that reaches past memory faults at the first address that does. -/
theorem writeBlock_error {m : Memory} {a : Nat} {bs : List Byte} (hn : bs ≠ []) (h : memSize < a + bs.length) :
    writeBlock m a bs = .error (outOfBounds .write (max a memSize)) := by
  induction bs generalizing a m with
  | nil => exact absurd rfl hn
  | cons b bs ih =>
    simp only [List.length_cons] at h
    rcases Nat.lt_or_ge a memSize with h1 | h1
    · rw [writeBlock, memWrite_ok h1]
      have : bs ≠ [] := by rintro rfl; simp at h; omega
      simp only [ih (m := m.poke a b) (a := a + 1) this (by omega)]
      rw [Nat.max_eq_right (show a + 1 ≤ memSize by omega), Nat.max_eq_right (Nat.le_of_lt h1)]
    · rw [writeBlock, memWrite_error h1, Nat.max_eq_left h1]

/-- A block write that succeeds keeps the canonical form. -/
theorem writeBlock_wf {m m' : Memory} {a : Nat} {bs : List Byte} (h : m.wf = true)
    (hw : writeBlock m a bs = .ok m') : m'.wf = true := by
  induction bs generalizing a m with
  | nil => cases hw; exact h
  | cons b bs ih =>
    rw [writeBlock] at hw
    split at hw
    · cases hw
    · rename_i hb
      exact ih (memWrite_wf h hb) hw

/-- The host's block writes put the bytes in order and nothing else, and keep the canonical form. -/
theorem Memory.pokeAll_spec {m : Memory} (hm : m.wf = true) {a : Nat} {bs : List Byte}
    (h : a + bs.length ≤ memSize) :
    (m.pokeAll a bs).wf = true ∧
      ∀ c, (m.pokeAll a bs).peek c = if h : a ≤ c ∧ c < a + bs.length then bs[c - a]'(by omega) else m.peek c := by
  obtain ⟨m', h1, h2, h3⟩ := writeBlock_ok hm h
  have : ∀ {m : Memory} {a : Nat} {bs : List Byte}, a + bs.length ≤ memSize →
      writeBlock m a bs = .ok (m.pokeAll a bs) := by
    intro m a bs
    induction bs generalizing m a with
    | nil => intro _; rfl
    | cons b bs ih =>
      intro h
      simp only [List.length_cons] at h
      rw [writeBlock, memWrite_ok (by omega)]
      exact ih (by omega)
  rw [this h] at h1
  cases h1
  exact ⟨h2, h3⟩

end Sys2Proof.Machine
end

