-- ==== Sys2Proof/Laws/Operands.lean ====
section
/-! SUPPORT. What the operand forms, the flag computations, the return stack and the fault entry do. -/

namespace Sys2Proof.Machine

/-! ### Operands -/

theorem addrWord_toNat (nnn : Addr12) : (addrWord nnn).toNat = nnn.toNat := by
  have := nnn.isLt
  rw [addrWord, BitVec.toNat_setWidth]
  omega

theorem byteWord_toNat (b : Byte) : (byteWord b).toNat = b.toNat := by
  have := b.isLt
  rw [byteWord, BitVec.toNat_setWidth]
  omega

theorem keyByte_toNat (k : Key) : (keyByte k).toNat = k.val := by
  rw [keyByte, BitVec.toNat_ofNat]
  omega

/-- The mask of the index register keeps the low 12 bits (R20). -/
theorem mask12_toNat (w : Word) : (w &&& 0x0FFF).toNat = w.toNat % 4096 := by
  rw [BitVec.toNat_and, show (0x0FFF : Word).toNat = 2 ^ 12 - 1 from rfl, Nat.and_two_pow_sub_one_eq_mod]

theorem offsetTarget_toNat (v0 : Byte) (nnn : Addr12) : (offsetTarget v0 nnn).toNat = v0.toNat + nnn.toNat := by
  have h1 := v0.isLt
  have h2 := nnn.isLt
  rw [offsetTarget, BitVec.toNat_add, byteWord_toNat, addrWord_toNat]
  omega

theorem glyphAddr_toNat (b : Byte) : (glyphAddr b).toNat = 0x050 + 5 * (b.toNat % 16) := by
  simp only [glyphAddr, BitVec.toNat_ofNat, fontBase, fontGlyphBytes, lowNibble]
  omega

theorem regBlock_length (s : State) (x : Reg) : (regBlock s x).length = x.val + 1 := by
  simp only [regBlock, List.length_take, Vector.length_toList]
  omega

theorem regBlock_getElem (s : State) (x : Reg) {k : Nat} (h : k < (regBlock s x).length) :
    (regBlock s x)[k] = s.getV ⟨k, by rw [regBlock_length] at h; omega⟩ := by
  simp [regBlock, State.getV]

/-- Registers loaded from a block: those it covers take its bytes, the others keep theirs. -/
theorem loadBlock_getElem (v : Vector Byte 16) (k : Nat) (bs : List Byte) (r : Reg) :
    (loadBlock v k bs)[r] = if h : k ≤ r.val ∧ r.val < k + bs.length then bs[r.val - k]'(by omega) else v[r] := by
  induction bs generalizing v k with
  | nil => rw [dif_neg (by simp)]; rfl
  | cons b bs ih =>
    rw [loadBlock]
    split
    · rename_i hk
      rw [ih]
      rcases Nat.lt_trichotomy r.val k with hr | hr | hr
      · rw [dif_neg (by omega), dif_neg (by omega)]
        simp [Nat.ne_of_gt hr]
      · subst hr
        rw [dif_neg (by omega), dif_pos (by simp)]
        simp
      · by_cases h2 : r.val < k + 1 + bs.length
        · rw [dif_pos (by omega), dif_pos (by simp; omega)]
          obtain ⟨d, hd⟩ : ∃ d, r.val - k = d + 1 := ⟨r.val - k - 1, by omega⟩
          have hd' : r.val - (k + 1) = d := by omega
          simp [hd, hd']
        · rw [dif_neg (by omega), dif_neg (by simp; omega)]
          simp [Nat.ne_of_lt hr]
    · split
      · omega
      · rfl

/-- With a key pressed, the lowest one is found. -/
theorem firstPressed_some {key : Vector Bool 16} {k : Key} (h : firstPressed key = some k) :
    key[k] = true ∧ ∀ j : Key, j < k → key[j] = false := by
  rw [firstPressed, List.find?_eq_some_iff_append] at h
  obtain ⟨hk, as, bs, hsplit, has⟩ := h
  refine ⟨hk, fun j hj => ?_⟩
  have hall : allKeys = List.finRange 16 := by decide
  have hsorted : allKeys.Pairwise (· < ·) := by decide
  have hjm : j ∈ allKeys := by rw [hall]; exact List.mem_finRange j
  rw [hsplit, List.mem_append, List.mem_cons] at hjm
  rw [hsplit, List.pairwise_append, List.pairwise_cons] at hsorted
  rcases hjm with hj1 | hj1 | hj1
  · simpa using has j hj1
  · exact absurd hj1 (ne_of_lt hj)
  · exact absurd (hsorted.2.1.1 j hj1) (not_lt_of_gt hj)

/-- With no key pressed, none is found. -/
theorem firstPressed_none {key : Vector Bool 16} : firstPressed key = none ↔ ∀ k : Key, key[k] = false := by
  have hall : allKeys = List.finRange 16 := by decide
  rw [firstPressed, List.find?_eq_none, hall]
  simp

/-! ### Flag computations (R77) -/

theorem addCarry_fst (a b : Byte) : (addCarry a b).1 = a + b := by
  apply BitVec.eq_of_toNat_eq
  rw [BitVec.toNat_add, addCarry, BitVec.toNat_ofNat]

theorem subNotBorrow_fst (a b : Byte) : (subNotBorrow a b).1 = a - b := by
  have := b.isLt
  apply BitVec.eq_of_toNat_eq
  rw [BitVec.toNat_sub, subNotBorrow, BitVec.toNat_ofNat]
  omega

theorem flagByte_toNat (c : Bool) : (flagByte c).toNat = if c then 1 else 0 := by
  cases c <;> rfl

/-! ### The return stack (R22) -/

/-- A push with a free slot: the address is in that slot and the count is one more; nothing else changes. -/
theorem push_ok {a : Word} {s : State} (h : s.sp.val < 16) :
    push a s = .ok { s with stack := s.stack.set s.sp.val a, sp := ⟨s.sp.val + 1, Nat.succ_lt_succ h⟩ } :=
  dif_pos h

/-- A push with no free slot raises `StackOverflow` (R111). -/
theorem push_error {a : Word} {s : State} (h : s.sp.val = 16) :
    push a s = .error { fault := .stackOverflow, addr := none } :=
  dif_neg (by omega)

/-- A pop with a slot taken: `pc` is that slot's address and the count is one less; nothing else changes. -/
theorem popPc_ok {s : State} (h : 0 < s.sp.val) :
    popPc s = .ok { s with
      sp := ⟨s.sp.val - 1, Nat.lt_of_le_of_lt (Nat.sub_le _ _) s.sp.isLt⟩
      pc := s.stack[s.sp.val - 1]'(Nat.lt_of_lt_of_le (Nat.sub_lt h Nat.one_pos) (Nat.le_of_lt_succ s.sp.isLt)) } :=
  dif_pos h

/-- A pop with no slot taken raises `StackUnderflow` (R112). -/
theorem popPc_error {s : State} (h : s.sp.val = 0) : popPc s = .error { fault := .stackUnderflow, addr := none } :=
  dif_neg (by omega)

/-- A push that succeeds had a free slot and did what `push_ok` says. -/
theorem push_eq_ok {a : Word} {s t : State} (h : push a s = .ok t) : ∃ hs : s.sp.val < 16,
    t = { s with stack := s.stack.set s.sp.val a, sp := ⟨s.sp.val + 1, Nat.succ_lt_succ hs⟩ } := by
  by_cases hs : s.sp.val < 16
  · rw [push_ok hs] at h
    exact ⟨hs, by simpa using h.symm⟩
  · rw [push_error (by omega)] at h
    cases h

/-- A pop that succeeds had a slot taken and did what `popPc_ok` says. -/
theorem popPc_eq_ok {s t : State} (h : popPc s = .ok t) : ∃ hs : 0 < s.sp.val,
    t = { s with
      sp := ⟨s.sp.val - 1, Nat.lt_of_le_of_lt (Nat.sub_le _ _) s.sp.isLt⟩
      pc := s.stack[s.sp.val - 1]'(Nat.lt_of_lt_of_le (Nat.sub_lt hs Nat.one_pos) (Nat.le_of_lt_succ s.sp.isLt)) } := by
  by_cases hs : 0 < s.sp.val
  · rw [popPc_ok hs] at h
    exact ⟨hs, by simpa using h.symm⟩
  · rw [popPc_error (by omega)] at h
    cases h

/-! ### The end of a step (R64, R65) -/

theorem map_eq_ok {α β : Type} {f : α → β} {r : Except Trap α} {b : β} (h : r.map f = .ok b) :
    ∃ a, r = .ok a ∧ f a = b := by
  cases r with
  | ok a => exact ⟨a, rfl, by simpa [Except.map] using h⟩
  | error e => cases h

theorem map_eq_error {α β : Type} {f : α → β} {r : Except Trap α} {e : Trap} (h : r.map f = .error e) :
    r = .error e := by
  cases r with
  | ok a => cases h
  | error e' => simpa [Except.map] using h

@[simp] theorem commit_ok (i : Instr) (s t : State) : commit i s (.ok t) = .next t := rfl

@[simp] theorem commit_error (i : Instr) (s : State) (e : Trap) :
    commit i s (.error e) = .next (takeFault (some (encode i)) e s) := rfl

/-- A step that ends with `commit` always has a next state: its writes, or the fault taken. -/
theorem commit_cases {i : Instr} {s t : State} {r : Except Trap State} (h : commit i s r = .next t) :
    r = .ok t ∨ ∃ e, r = .error e ∧ t = takeFault (some (encode i)) e s := by
  cases r with
  | ok u => cases h; exact .inl rfl
  | error e => cases h; exact .inr ⟨e, rfl, rfl⟩

theorem commit_next (i : Instr) (s : State) (r : Except Trap State) : ∃ t, commit i s r = .next t := by
  cases r with
  | ok u => exact ⟨u, rfl⟩
  | error e => exact ⟨_, rfl⟩

/-- Taking a fault changes nothing but `halted` (R65). -/
theorem takeFault_sameExcept (opcode : Option Word) (e : Trap) (s : State) :
    SameExcept [.halted] s (takeFault opcode e s) := by
  constructor <;> intros <;> first | rfl | simp_all

end Sys2Proof.Machine
end

