-- ==== Sys2Proof/Laws/Display.lean ====
section
/-! SUPPORT. Drawing, pixel by pixel: what one toggle does, and what drawing distinct pixels does. -/

namespace Sys2Proof.Machine

/-- What a pixel is after a toggle. -/
theorem Framebuffer.toggle_get (fb : Framebuffer) (x x' : Fin 64) (y y' : Fin 32) :
    (fb.toggle x y).get x' y' = (fb.get x' y' ^^ decide (x' = x ∧ y' = y)) := by
  simp only [Framebuffer.get, Framebuffer.toggle, Fin.getElem_fin, Vector.getElem_set, Fin.ext_iff]
  by_cases hx : x.val = x'.val
  · simp only [hx, if_true, Vector.getElem_set, true_and]
    by_cases hy : y.val = y'.val
    · simp [hy]
    · simp [hy, Ne.symm hy]
  · simp [hx, Ne.symm hx]

@[simp] theorem Framebuffer.clear_get (x : Fin 64) (y : Fin 32) : Framebuffer.clear.get x y = false := by
  simp [Framebuffer.get, Framebuffer.clear]

/-- Two framebuffers with the same pixels are equal. -/
theorem Framebuffer.ext_get {f g : Framebuffer} (h : ∀ x y, f.get x y = g.get x y) : f = g := by
  apply Vector.ext
  intro x hx
  apply Vector.ext
  intro y hy
  exact h ⟨x, hx⟩ ⟨y, hy⟩

theorem foldl_drawPixel (ps : List (Fin 64 × Fin 32)) (hnd : ps.Nodup) (p : Framebuffer × Bool) :
    (∀ x y, (ps.foldl drawPixel p).1.get x y = (p.1.get x y ^^ decide ((x, y) ∈ ps))) ∧
      (ps.foldl drawPixel p).2 = (p.2 || ps.any fun q => p.1.get q.1 q.2) := by
  induction ps generalizing p with
  | nil => simp
  | cons q ps ih =>
    obtain ⟨hq, hnd⟩ := List.nodup_cons.1 hnd
    obtain ⟨h1, h2⟩ := ih hnd (drawPixel p q)
    refine ⟨fun x y => ?_, ?_⟩
    · rw [List.foldl_cons, h1]
      simp only [drawPixel, Framebuffer.toggle_get, List.mem_cons]
      by_cases he : (x, y) = q
      · subst he
        simp [hq]
      · have : ¬(x = q.1 ∧ y = q.2) := fun h => he (Prod.ext h.1 h.2)
        simp [this, he]
    · rw [List.foldl_cons, h2]
      simp only [drawPixel, List.any_cons, Bool.or_assoc]
      congr 2
      rw [Bool.eq_iff_iff, List.any_eq_true, List.any_eq_true]
      have key : ∀ r ∈ ps, (p.1.toggle q.1 q.2).get r.1 r.2 = p.1.get r.1 r.2 := by
        intro r hr
        have : ¬(r.1 = q.1 ∧ r.2 = q.2) := fun h => hq (by rwa [← Prod.ext h.1 h.2])
        simp [Framebuffer.toggle_get, this]
      exact ⟨fun ⟨r, hr, h⟩ => ⟨r, hr, by rwa [key r hr] at h⟩, fun ⟨r, hr, h⟩ => ⟨r, hr, by rwa [key r hr]⟩⟩

/-- Drawing distinct pixels: each of them is inverted and no other pixel changes, and the collision flag says whether
one of them was on before (R98). -/
theorem drawPixels_spec (fb : Framebuffer) {ps : List (Fin 64 × Fin 32)} (hnd : ps.Nodup) :
    (∀ x y, (drawPixels fb ps).1.get x y = (fb.get x y ^^ decide ((x, y) ∈ ps))) ∧
      (drawPixels fb ps).2 = ps.any fun q => fb.get q.1 q.2 := by
  obtain ⟨h1, h2⟩ := foldl_drawPixel ps hnd (fb, false)
  exact ⟨h1, by simpa [drawPixels] using h2⟩

theorem pixelX_inj {x0 : Byte} {c d : Nat} (hc : c < 8) (hd : d < 8) (h : pixelX x0 c = pixelX x0 d) : c = d := by
  simp only [pixelX, Fin.mk.injEq] at h
  omega

theorem pixelY_inj {y0 : Byte} {r k : Nat} (hr : r < 32) (hk : k < 32) (h : pixelY y0 r = pixelY y0 k) : r = k := by
  simp only [pixelY, Fin.mk.injEq] at h
  omega

theorem mem_rowPixels {x0 y0 : Byte} {r : Nat} {row : Byte} {p : Fin 64 × Fin 32} :
    p ∈ rowPixels x0 y0 r row ↔ ∃ c < 8, row.getLsbD (7 - c) = true ∧ p = (pixelX x0 c, pixelY y0 r) := by
  simp only [rowPixels, List.mem_map, List.mem_filter, List.mem_range]
  exact ⟨fun ⟨c, ⟨h1, h2⟩, h3⟩ => ⟨c, h1, h2, h3.symm⟩, fun ⟨c, h1, h2, h3⟩ => ⟨c, ⟨h1, h2⟩, h3.symm⟩⟩

/-- The pixels of a sprite are those its set bits name (R96, R97, R99). -/
theorem mem_spritePixels {x0 y0 : Byte} {r : Nat} {rows : List Byte} {p : Fin 64 × Fin 32} :
    p ∈ spritePixels x0 y0 r rows ↔
      ∃ k, ∃ h : k < rows.length, ∃ c < 8, rows[k].getLsbD (7 - c) = true ∧
        p = (pixelX x0 c, pixelY y0 (r + k)) := by
  induction rows generalizing r with
  | nil => simp [spritePixels]
  | cons row rows ih =>
    rw [spritePixels, List.mem_append, mem_rowPixels, ih]
    constructor
    · rintro (⟨c, h1, h2, h3⟩ | ⟨k, hk, c, h1, h2, h3⟩)
      · exact ⟨0, by simp, c, h1, h2, h3⟩
      · exact ⟨k + 1, by simpa using hk, c, h1, by simpa using h2, by rw [h3, Nat.add_right_comm, Nat.add_assoc]⟩
    · rintro ⟨k, hk, c, h1, h2, h3⟩
      cases k with
      | zero => exact .inl ⟨c, h1, h2, h3⟩
      | succ k =>
        exact .inr ⟨k, by simpa using hk, c, h1, by simpa using h2, by rw [h3, Nat.add_right_comm, Nat.add_assoc]⟩

/-- No pixel is toggled twice: 8 columns are distinct modulo 64, and at most 32 rows modulo 32 (R98). -/
theorem spritePixels_nodup {x0 y0 : Byte} {r : Nat} {rows : List Byte} (h : r + rows.length ≤ 32) :
    (spritePixels x0 y0 r rows).Nodup := by
  induction rows generalizing r with
  | nil => exact List.nodup_nil
  | cons row rows ih =>
    simp only [List.length_cons] at h
    rw [spritePixels, List.nodup_append]
    refine ⟨?_, ih (by omega), ?_⟩
    · rw [rowPixels]
      refine List.Nodup.map_on ?_ (List.nodup_range.filter _)
      intro c hc d hd he
      simp only [List.mem_filter, List.mem_range] at hc hd
      exact pixelX_inj hc.1 hd.1 (Prod.ext_iff.1 he).1
    · intro p hp q hq he
      obtain ⟨c, _, _, rfl⟩ := mem_rowPixels.1 hp
      obtain ⟨k, hk, d, _, _, rfl⟩ := mem_spritePixels.1 hq
      have := pixelY_inj (by omega) (by omega) (Prod.ext_iff.1 he).2
      omega

end Sys2Proof.Machine
end

