-- ==== Sys2Proof/Laws/Step.lean ====
section
/-! SUPPORT. What a step can do, said once. -/

namespace Sys2Proof.Machine

/-- A halted machine stays where it is (R59). -/
theorem step_of_halted {s : State} {r : FaultRecord} (h : s.halted = some r) : step s = .next s := by
  simp only [step, h]

/-- A fetch past memory takes its fault (R60, R65). -/
theorem step_of_fetch_error {s : State} {e : Trap} (h : s.halted = none) (hf : fetchWord s.mem s.pc = .error e) :
    step s = .next (takeFault none e s) := by
  simp only [step, h, hf]

/-- A fetched word is decoded and run (R58). -/
theorem step_of_fetch_ok {s : State} {op : Word} (h : s.halted = none) (hf : fetchWord s.mem s.pc = .ok op) :
    step s = exec (decode s.cfg.extCls op) s := by
  simp only [step, h, hf]

/-- Everything a step that answers a next state can have done: nothing, on a halted machine; the fetch fault; or the
decoded instruction. -/
theorem step_cases {s t : State} (h : step s = .next t) :
    (∃ r, s.halted = some r ∧ t = s) ∨
    (s.halted = none ∧ ∃ e, fetchWord s.mem s.pc = .error e ∧ t = takeFault none e s) ∨
    (s.halted = none ∧ ∃ op, fetchWord s.mem s.pc = .ok op ∧ exec (decode s.cfg.extCls op) s = .next t) := by
  cases hh : s.halted with
  | some r =>
    rw [step_of_halted hh] at h
    cases h
    exact .inl ⟨r, rfl, rfl⟩
  | none =>
    cases hf : fetchWord s.mem s.pc with
    | error e =>
      rw [step_of_fetch_error hh hf] at h
      cases h
      exact .inr (.inl ⟨rfl, e, rfl, rfl⟩)
    | ok op =>
      rw [step_of_fetch_ok hh hf] at h
      exact .inr (.inr ⟨rfl, op, rfl, h⟩)

/-- `stepFull` on a halted machine. -/
theorem stepFull_of_halted {s : State} {r : FaultRecord} (h : s.halted = some r) :
    stepFull s = .next (s, .halted r) := by
  simp only [stepFull, h]

/-- `stepFull` with the fetch past memory. -/
theorem stepFull_of_fetch_error {s : State} {e : Trap} (h : s.halted = none)
    (hf : fetchWord s.mem s.pc = .error e) :
    stepFull s = .next (takeFault none e s, .fault (faultRecord none e s)) := by
  simp only [stepFull, h, hf]

/-- `stepFull` with an instruction that has a next state. -/
theorem stepFull_of_exec {s t : State} {op : Word} (h : s.halted = none) (hf : fetchWord s.mem s.pc = .ok op)
    (he : exec (decode s.cfg.extCls op) s = .next t) :
    stepFull s = .next (t, execResult (decode s.cfg.extCls op) s t) := by
  simp only [stepFull, h, hf, he]

/-! ### What an instruction does to the fault record -/

/-- An instruction either leaves `halted` as it was, or takes a fault and does nothing else (R65). -/
theorem exec_halted_or_fault {i : Instr} {s t : State} (h : exec i s = .next t) :
    t.halted = s.halted ∨ ∃ e, t = takeFault (some (encode i)) e s := by
  cases i
  case callAddr nnn =>
    rcases commit_cases h with h | ⟨e, _, h⟩
    · obtain ⟨u, h1, rfl⟩ := map_eq_ok h
      obtain ⟨_, rfl⟩ := push_eq_ok h1
      exact .inl rfl
    · exact .inr ⟨e, h⟩
  case ret =>
    rcases commit_cases h with h | ⟨e, _, h⟩
    · obtain ⟨_, rfl⟩ := popPc_eq_ok h
      exact .inl rfl
    · exact .inr ⟨e, h⟩
  case drw | ldBVx | storeRegs | loadRegs =>
    rcases commit_cases h with h | ⟨e, _, h⟩
    · obtain ⟨u, _, rfl⟩ := map_eq_ok h
      exact .inl rfl
    · exact .inr ⟨e, h⟩
  case cls | ldVxK =>
    cases h
    left
    split <;> rfl
  all_goals
    cases h
    exact .inl rfl

end Sys2Proof.Machine
end

