-- ==== Sys2Proof/Laws/HostCalls.lean ====
section
/-! SUPPORT. What the host operations do to memory and what they leave alone. -/

namespace Sys2Proof.Machine

@[simp] theorem fontBytes_length : fontBytes.length = 80 := rfl

/-- The font lies inside memory. -/
theorem font_fits : fontBase + fontBytes.length ≤ memSize := by
  rw [fontBytes_length]
  decide

/-- An image that the loader takes lies inside memory. -/
theorem image_fits {image : List Byte} (h : image.length ≤ maxImage) : loadAddr + image.length ≤ memSize := by
  simp only [loadAddr, memSize, maxImage] at *
  omega

/-- The font's bytes, written to a memory in canonical form. -/
theorem pokeAll_font {m : Memory} (hm : m.wf = true) :
    (m.pokeAll fontBase fontBytes).wf = true ∧
      ∀ c, (m.pokeAll fontBase fontBytes).peek c =
        if h : fontBase ≤ c ∧ c < fontBase + fontBytes.length then fontBytes[c - fontBase]'(by omega) else m.peek c :=
  Memory.pokeAll_spec hm font_fits

/-- The host's font write is a write to memory and nothing else. -/
theorem installFont_mem_only (s : State) : ∃ m, installFont s = { s with mem := m } ∧
    (s.mem.wf = true → m.wf = true) := by
  cases hf : s.cfg.fontInstalled with
  | true => exact ⟨_, if_pos hf, fun hm => (pokeAll_font hm).1⟩
  | false => exact ⟨s.mem, if_neg (by rw [hf]; exact Bool.false_ne_true), id⟩

theorem installFont_installed {s : State} (h : s.cfg.fontInstalled = true) :
    installFont s = { s with mem := s.mem.pokeAll fontBase fontBytes } := if_pos h

/-- What the font write leaves in memory, under `FONT_INSTALLED`; nothing else changes. -/
theorem installFont_spec {s : State} (h : s.cfg.fontInstalled = true) (hm : s.mem.wf = true) :
    ∃ m, installFont s = { s with mem := m } ∧ m.wf = true ∧ ∀ c, m.peek c =
      if h : fontBase ≤ c ∧ c < fontBase + fontBytes.length then fontBytes[c - fontBase]'(by omega)
      else s.mem.peek c :=
  ⟨_, installFont_installed h, pokeAll_font hm⟩

theorem installFont_not_installed {s : State} (h : s.cfg.fontInstalled = false) : installFont s = s :=
  if_neg (by rw [h]; exact Bool.false_ne_true)

/-- A write to memory alone leaves every other part of the state. -/
theorem sameExcept_mem (s : State) (m : Memory) : SameExcept [.mem] s { s with mem := m } := by
  constructor
  case mem => exact fun h => absurd List.mem_cons_self h
  all_goals intros; rfl

/-- The loader writes memory and nothing else. -/
theorem load_mem_only (image : List Byte) (s : State) : ∃ m, (load image s).1 = { s with mem := m } ∧
    (s.mem.wf = true → m.wf = true) := by
  by_cases h : image.length ≤ maxImage
  · refine ⟨s.mem.pokeAll loadAddr image, ?_, fun hm => (Memory.pokeAll_spec hm (image_fits h)).1⟩
    rw [load, if_neg (by omega), loadImage]
  · refine ⟨s.mem, ?_, id⟩
    rw [load, if_pos (by omega)]

/-- `setKey` writes keys and nothing else. -/
theorem setKey_key_only (k : Int) (pressed : Bool) (s : State) :
    ∃ key, (setKey k pressed s).1 = { s with key := key } := by
  simp only [setKey]
  split
  · exact ⟨_, rfl⟩
  · exact ⟨s.key, rfl⟩

end Sys2Proof.Machine
end

