-- ==== Sys2Proof/Laws/PerInstr.lean ====
section
/-! SUPPORT. Facts about each instruction as syntax, one lemma per constructor: its word is of its own row of the
opcode table (R53), and the catch-all's word is of no row (R108). -/

namespace Sys2Proof

theorem packAddr_F000 (f : Fin 16) (nnn : Addr12) :
    packAddr f nnn &&& 0xF000 = BitVec.ofNat 16 (f.val * 4096) := by
  have h := nnn.isLt
  apply BitVec.eq_of_toNat_eq
  rw [and_F000, family_val, packAddr_toNat, BitVec.toNat_ofNat]
  omega

theorem packByte_F000 (f x : Fin 16) (nn : Byte) :
    packByte f x nn &&& 0xF000 = BitVec.ofNat 16 (f.val * 4096) := by
  have h := nn.isLt
  apply BitVec.eq_of_toNat_eq
  rw [and_F000, family_val, packByte_toNat, BitVec.toNat_ofNat]
  omega

theorem packNibbles_F000 (f x y n : Fin 16) :
    packNibbles f x y n &&& 0xF000 = BitVec.ofNat 16 (f.val * 4096) := by
  apply BitVec.eq_of_toNat_eq
  rw [and_F000, family_val, packNibbles_toNat, BitVec.toNat_ofNat]
  omega

theorem packNibbles_F00F (f x y n : Fin 16) :
    packNibbles f x y n &&& 0xF00F = BitVec.ofNat 16 (f.val * 4096 + n.val) := by
  apply BitVec.eq_of_toNat_eq
  rw [and_F00F, family_val, fieldN_val, packNibbles_toNat, BitVec.toNat_ofNat]
  omega

theorem packByte_F0FF (f x : Fin 16) (nn : Byte) :
    packByte f x nn &&& 0xF0FF = BitVec.ofNat 16 (f.val * 4096 + nn.toNat) := by
  have h := nn.isLt
  apply BitVec.eq_of_toNat_eq
  rw [and_F0FF, family_val, fieldNN_toNat, packByte_toNat, BitVec.toNat_ofNat]
  omega

end Sys2Proof

namespace Sys2Proof.Laws.EncodeMatchesRow

/-- The mask and match of an instruction's own row of R53; the catch-all has none. -/
def rowOf : Instr → Option (Word × Word)
  | .cls => some (0xFFFF, 0x00E0)
  | .ret => some (0xFFFF, 0x00EE)
  | .jpAddr _ => some (0xF000, 0x1000)
  | .callAddr _ => some (0xF000, 0x2000)
  | .seByte _ _ => some (0xF000, 0x3000)
  | .sneByte _ _ => some (0xF000, 0x4000)
  | .seReg _ _ => some (0xF00F, 0x5000)
  | .ldByte _ _ => some (0xF000, 0x6000)
  | .addByte _ _ => some (0xF000, 0x7000)
  | .ldReg _ _ => some (0xF00F, 0x8000)
  | .orReg _ _ => some (0xF00F, 0x8001)
  | .andReg _ _ => some (0xF00F, 0x8002)
  | .xorReg _ _ => some (0xF00F, 0x8003)
  | .addReg _ _ => some (0xF00F, 0x8004)
  | .subReg _ _ => some (0xF00F, 0x8005)
  | .shrReg _ _ => some (0xF00F, 0x8006)
  | .subnReg _ _ => some (0xF00F, 0x8007)
  | .shlReg _ _ => some (0xF00F, 0x800E)
  | .sneReg _ _ => some (0xF00F, 0x9000)
  | .ldIAddr _ => some (0xF000, 0xA000)
  | .jpV0 _ => some (0xF000, 0xB000)
  | .rndByte _ _ => some (0xF000, 0xC000)
  | .drw _ _ _ => some (0xF000, 0xD000)
  | .skp _ => some (0xF0FF, 0xE09E)
  | .sknp _ => some (0xF0FF, 0xE0A1)
  | .ldVxDt _ => some (0xF0FF, 0xF007)
  | .ldVxK _ => some (0xF0FF, 0xF00A)
  | .ldDtVx _ => some (0xF0FF, 0xF015)
  | .ldStVx _ => some (0xF0FF, 0xF018)
  | .addIVx _ => some (0xF0FF, 0xF01E)
  | .ldFVx _ => some (0xF0FF, 0xF029)
  | .ldBVx _ => some (0xF0FF, 0xF033)
  | .storeRegs _ => some (0xF0FF, 0xF055)
  | .loadRegs _ => some (0xF0FF, 0xF065)
  | .unsupported _ => none

/-- The word of an instruction is of its own row of R53; the word of a well-formed catch-all is of none. -/
def Statement (i : Instr) : Prop :=
  match rowOf i with
  | some (mask, value) => encode i &&& mask = value
  | none => ∀ ext, i.wf ext = true → matchesRow ext (encode i) = false

theorem cls : Statement .cls := rfl

theorem ret : Statement .ret := rfl

theorem jpAddr (nnn : Addr12) : Statement (.jpAddr nnn) := packAddr_F000 _ nnn

theorem callAddr (nnn : Addr12) : Statement (.callAddr nnn) := packAddr_F000 _ nnn

theorem seByte (x : Reg) (nn : Byte) : Statement (.seByte x nn) := packByte_F000 _ x nn

theorem sneByte (x : Reg) (nn : Byte) : Statement (.sneByte x nn) := packByte_F000 _ x nn

theorem seReg (x y : Reg) : Statement (.seReg x y) := packNibbles_F00F _ x y _

theorem ldByte (x : Reg) (nn : Byte) : Statement (.ldByte x nn) := packByte_F000 _ x nn

theorem addByte (x : Reg) (nn : Byte) : Statement (.addByte x nn) := packByte_F000 _ x nn

theorem ldReg (x y : Reg) : Statement (.ldReg x y) := packNibbles_F00F _ x y _

theorem orReg (x y : Reg) : Statement (.orReg x y) := packNibbles_F00F _ x y _

theorem andReg (x y : Reg) : Statement (.andReg x y) := packNibbles_F00F _ x y _

theorem xorReg (x y : Reg) : Statement (.xorReg x y) := packNibbles_F00F _ x y _

theorem addReg (x y : Reg) : Statement (.addReg x y) := packNibbles_F00F _ x y _

theorem subReg (x y : Reg) : Statement (.subReg x y) := packNibbles_F00F _ x y _

theorem shrReg (x y : Reg) : Statement (.shrReg x y) := packNibbles_F00F _ x y _

theorem subnReg (x y : Reg) : Statement (.subnReg x y) := packNibbles_F00F _ x y _

theorem shlReg (x y : Reg) : Statement (.shlReg x y) := packNibbles_F00F _ x y _

theorem sneReg (x y : Reg) : Statement (.sneReg x y) := packNibbles_F00F _ x y _

theorem ldIAddr (nnn : Addr12) : Statement (.ldIAddr nnn) := packAddr_F000 _ nnn

theorem jpV0 (nnn : Addr12) : Statement (.jpV0 nnn) := packAddr_F000 _ nnn

theorem rndByte (x : Reg) (nn : Byte) : Statement (.rndByte x nn) := packByte_F000 _ x nn

theorem drw (x y : Reg) (n : Fin 16) : Statement (.drw x y n) := packNibbles_F000 _ x y n

theorem skp (x : Reg) : Statement (.skp x) := packByte_F0FF _ x _

theorem sknp (x : Reg) : Statement (.sknp x) := packByte_F0FF _ x _

theorem ldVxDt (x : Reg) : Statement (.ldVxDt x) := packByte_F0FF _ x _

theorem ldVxK (x : Reg) : Statement (.ldVxK x) := packByte_F0FF _ x _

theorem ldDtVx (x : Reg) : Statement (.ldDtVx x) := packByte_F0FF _ x _

theorem ldStVx (x : Reg) : Statement (.ldStVx x) := packByte_F0FF _ x _

theorem addIVx (x : Reg) : Statement (.addIVx x) := packByte_F0FF _ x _

theorem ldFVx (x : Reg) : Statement (.ldFVx x) := packByte_F0FF _ x _

theorem ldBVx (x : Reg) : Statement (.ldBVx x) := packByte_F0FF _ x _

theorem storeRegs (x : Reg) : Statement (.storeRegs x) := packByte_F0FF _ x _

theorem loadRegs (x : Reg) : Statement (.loadRegs x) := packByte_F0FF _ x _

theorem unsupported (op : Word) : Statement (.unsupported op) := fun ext h => by
  simpa [Instr.wf, encode] using h

end Sys2Proof.Laws.EncodeMatchesRow
end

