-- ==== Sys2Proof/Tests/Slice0.lean ====
section
/-! SUPPORT. Tests: what well-formedness refuses, words decoded, steps on small states, and for each obligation with
hypotheses a state that meets them. The expected values are those of the vectors of spec/95_test_vectors.md, named in
the comments by their ids (W, S, CF, A, M, D, K, H), or the spec's encoding patterns (R53). -/

namespace Sys2Proof.Tests

open Sys2Proof.Machine

/-! ### Helpers -/

/-- The reset state with bytes in memory from an address up, and `pc` there. -/
def programAt (a : Nat) (bytes : List Byte) : State :=
  { State.reset with pc := BitVec.ofNat 16 a, mem := Memory.pokeAll [] a bytes }

/-- The reset state with a word at 0x200. -/
def word (op : Word) : State := programAt 0x200 (wordBytes op)

/-- Registers set one after another. -/
def setRegs (rs : List (Reg × Byte)) (s : State) : State := rs.foldl (fun t p => t.setV p.1 p.2) s

/-- Bytes put in memory from an address up. -/
def bytesAt (a : Nat) (bytes : List Byte) (s : State) : State := { s with mem := s.mem.pokeAll a bytes }

/-- Keys pressed. -/
def press (ks : List Key) (s : State) : State := { s with key := ks.foldl (fun (k : Vector Bool 16) (i : Key) => k.set i.val true i.isLt) s.key }

/-- Whether a step answers a next state of which a test is true. -/
def stepsTo (s : State) (p : State → Bool) : Bool :=
  match step s with
  | .next t => p t
  | .fault _ => false
  | .refused _ => false

/-- The result of a step (R57). -/
def resultOf (s : State) : Option StepResult :=
  match stepFull s with
  | .next (_, r) => some r
  | .fault _ => none
  | .refused _ => none

/-- The pixels that are on, by columns. -/
def pixelsOn (fb : Framebuffer) : List (Nat × Nat) :=
  (List.range 64).flatMap fun x => ((List.range 32).filter fun y => (fb[x]!)[y]!).map fun y => (x, y)

/-- The framebuffer with one pixel on. -/
def pixel (x : Fin 64) (y : Fin 32) (s : State) : State := { s with fb := s.fb.toggle x y }

/-- A fault record to start halted tests from. -/
def someFault : FaultRecord := { fault := .stackUnderflow, pc := 0x200, opcode := some 0x00EE, addr := none }

/-! ### WellFormed: each check with a term it refuses -/

theorem test_wf_refuses_cls_without_extCls : Instr.wf false .cls = false := by decide
theorem test_wf_takes_cls_with_extCls : Instr.wf true .cls = true := by decide
theorem test_wf_refuses_word_of_another_row : Instr.wf false (.unsupported 0x6005) = false := by decide
theorem test_wf_refuses_cls_word_under_extCls : Instr.wf true (.unsupported 0x00E0) = false := by decide
theorem test_wf_takes_cls_word_without_extCls : Instr.wf false (.unsupported 0x00E0) = true := by decide
theorem test_wf_takes_unmatched_word : Instr.wf true (.unsupported 0x801F) = true := by decide

/-! ### Decoding: words written out from the patterns of R53 -/

theorem test_decode_control_flow :
    decode true 0x00E0 = .cls ∧ decode false 0x00EE = .ret ∧ decode false 0x1ABC = .jpAddr 0xABC ∧
    decode false 0x2ABC = .callAddr 0xABC ∧ decode false 0x3310 = .seByte 3 0x10 ∧
    decode false 0x4311 = .sneByte 3 0x11 ∧ decode false 0x5120 = .seReg 1 2 ∧
    decode false 0x9120 = .sneReg 1 2 ∧ decode false 0xB201 = .jpV0 0x201 := by decide

theorem test_decode_registers :
    decode false 0x6FAB = .ldByte 15 0xAB ∧ decode false 0x720A = .addByte 2 0x0A ∧
    decode false 0x8130 = .ldReg 1 3 ∧ decode false 0x8011 = .orReg 0 1 ∧ decode false 0x8012 = .andReg 0 1 ∧
    decode false 0x8443 = .xorReg 4 4 ∧ decode false 0x80F4 = .addReg 0 15 ∧ decode false 0x8F15 = .subReg 15 1 ∧
    decode false 0x8236 = .shrReg 2 3 ∧ decode false 0x8017 = .subnReg 0 1 ∧ decode false 0x820E = .shlReg 2 0 ∧
    decode false 0xCA55 = .rndByte 10 0x55 := by decide

theorem test_decode_memory_and_devices :
    decode false 0xAFFF = .ldIAddr 0xFFF ∧ decode false 0xD01F = .drw 0 1 15 ∧ decode false 0xE19E = .skp 1 ∧
    decode false 0xE1A1 = .sknp 1 ∧ decode false 0xF207 = .ldVxDt 2 ∧ decode false 0xF40A = .ldVxK 4 ∧
    decode false 0xF115 = .ldDtVx 1 ∧ decode false 0xF118 = .ldStVx 1 ∧ decode false 0xF01E = .addIVx 0 ∧
    decode false 0xF029 = .ldFVx 0 ∧ decode false 0xF033 = .ldBVx 0 ∧ decode false 0xFF55 = .storeRegs 15 ∧
    decode false 0xF165 = .loadRegs 1 := by decide

/-- CF16, CF17, A34, A35, M20, K6, D12 and R109. -/
theorem test_decode_unsupported :
    decode false 0x5121 = .unsupported 0x5121 ∧ decode false 0x912F = .unsupported 0x912F ∧
    decode false 0x8018 = .unsupported 0x8018 ∧ decode false 0x801F = .unsupported 0x801F ∧
    decode false 0xF0FF = .unsupported 0xF0FF ∧ decode false 0xE19F = .unsupported 0xE19F ∧
    decode false 0x00E0 = .unsupported 0x00E0 ∧ decode true 0x0123 = .unsupported 0x0123 ∧
    decode false 0x0000 = .unsupported 0x0000 := by decide

theorem test_decodeBytes_big_endian_with_rest :
    decodeBytes false [0x60, 0x05, 0x61] = .ok (.ldByte 0 0x05, [0x61]) := by decide
theorem test_decodeBytes_truncated : decodeBytes false [0x60] = .error .truncated := by decide
theorem test_decodeTableWord : decodeTableWord 16 0x8F14 = some (.addReg 15 1) := by decide
theorem test_withFetchWord_runs_the_word :
    stepsTo (State.reset.withFetchWord 16 0x6FAB) (fun t => t.getV 15 == 0xAB && t.pc == 0x202) = true := by decide
/-- D13: the table's row 00E0 is run, not the unsupported word. -/
theorem test_withFetchWord_runs_cls :
    stepsTo ((pixel 10 10 State.reset).withFetchWord 16 0x00E0) (fun t => pixelsOn t.fb == []) = true := by decide

/-! ### The step cycle -/

/-- S1. -/
theorem test_step_fetch_last_byte : stepsTo (programAt 0xFFF [0x60]) (fun t =>
    t.halted == some { fault := .memoryOutOfBounds .fetch, pc := 0xFFF, opcode := none, addr := some 0x1000 } &&
    t.pc == 0xFFF) = true := by decide
/-- S3. -/
theorem test_step_fetch_past_memory : stepsTo { State.reset with pc := 0x10FE } (fun t =>
    t.halted == some { fault := .memoryOutOfBounds .fetch, pc := 0x10FE, opcode := none, addr := some 0x10FE })
    = true := by decide
/-- S4. -/
theorem test_step_halted : resultOf { word 0x6001 with halted := some someFault } = some (.halted someFault) ∧
    stepsTo { word 0x6001 with halted := some someFault } (fun t => t.getV 0 == 0 && t.pc == 0x200) = true := by decide
/-- S10. -/
theorem test_step_odd_address : stepsTo (programAt 0x201 [0x60, 0x07]) (fun t =>
    t.getV 0 == 0x07 && t.pc == 0x203) = true := by decide

/-! ### Control flow -/

/-- CF1, CF2. -/
theorem test_jpAddr : stepsTo (word 0x1ABC) (·.pc == 0xABC) = true ∧ stepsTo (word 0x1FFF) (·.pc == 0xFFF) = true := by
  decide
/-- CF5. -/
theorem test_callAddr_last_slot : stepsTo { word 0x2ABC with sp := 15 } (fun t =>
    t.stack[15] == 0x202 && t.sp == 16 && t.pc == 0xABC) = true := by decide
/-- CF6. -/
theorem test_callAddr_overflow : stepsTo { word 0x2ABC with sp := 16 } (fun t =>
    t.halted == some { fault := .stackOverflow, pc := 0x200, opcode := some 0x2ABC, addr := none } &&
    t.sp == 16 && t.pc == 0x200) = true := by decide
/-- CF9. -/
theorem test_ret_keeps_slot :
    stepsTo { word 0x00EE with sp := 3, stack := State.reset.stack.set 2 0x456 } (fun t =>
      t.sp == 2 && t.pc == 0x456 && t.stack[2] == 0x456) = true := by decide
/-- CF10. -/
theorem test_ret_underflow : stepsTo (word 0x00EE) (fun t =>
    t.halted == some { fault := .stackUnderflow, pc := 0x200, opcode := some 0x00EE, addr := none } &&
    t.pc == 0x200) = true := by decide
/-- CF11, W8. -/
theorem test_seByte : stepsTo (setRegs [(15, 0x01)] (word 0x3F01)) (·.pc == 0x204) = true ∧
    stepsTo (setRegs [(3, 0x10)] (word 0x3311)) (·.pc == 0x202) = true := by decide
/-- CF13, W8. -/
theorem test_sneByte : stepsTo (setRegs [(0, 0xFF)] (word 0x40FF)) (·.pc == 0x202) = true ∧
    stepsTo (setRegs [(3, 0x10)] (word 0x4311)) (·.pc == 0x204) = true := by decide
/-- W8. -/
theorem test_seReg : stepsTo (setRegs [(1, 7), (2, 7)] (word 0x5120)) (·.pc == 0x204) = true ∧
    stepsTo (setRegs [(1, 7), (2, 8)] (word 0x5120)) (·.pc == 0x202) = true := by decide
/-- W8. -/
theorem test_sneReg : stepsTo (setRegs [(1, 7), (2, 7)] (word 0x9120)) (·.pc == 0x202) = true ∧
    stepsTo (setRegs [(1, 7), (2, 8)] (word 0x9120)) (·.pc == 0x204) = true := by decide
/-- CF19, CF20. -/
theorem test_jpV0 : stepsTo (setRegs [(0, 0xFF)] (word 0xBFFF)) (·.pc == 0x10FE) = true ∧
    stepsTo (setRegs [(1, 0x20)] (word 0xB201)) (·.pc == 0x201) = true := by decide

/-! ### Register loads and arithmetic -/

/-- A1. -/
theorem test_ldByte : stepsTo (word 0x6FAB) (fun t => t.getV 15 == 0xAB && t.pc == 0x202) = true := by decide
/-- A2. -/
theorem test_addByte_no_flag : stepsTo (setRegs [(0, 0xFF), (15, 0x55)] (word 0x7001)) (fun t =>
    t.getV 0 == 0 && t.getV 15 == 0x55) = true := by decide
/-- A4. -/
theorem test_ldReg : stepsTo (setRegs [(3, 0x42)] (word 0x8130)) (·.getV 1 == 0x42) = true := by decide
/-- A5. -/
theorem test_orReg_keeps_flag : stepsTo (setRegs [(0, 0x0F), (1, 0xF0), (15, 0x01)] (word 0x8011)) (fun t =>
    t.getV 0 == 0xFF && t.getV 15 == 0x01) = true := by decide
/-- A7. -/
theorem test_andReg : stepsTo (setRegs [(0, 0x3C), (1, 0x0F)] (word 0x8012)) (·.getV 0 == 0x0C) = true := by decide
/-- A8. -/
theorem test_xorReg : stepsTo (setRegs [(0, 0x3C), (1, 0x0F)] (word 0x8013)) (·.getV 0 == 0x33) = true := by decide
/-- A13. -/
theorem test_addReg_flag_last : stepsTo (setRegs [(15, 0xFF), (1, 0x01)] (word 0x8F14)) (·.getV 15 == 1) = true := by
  decide
/-- A14. -/
theorem test_addReg_reads_old_flag : stepsTo (setRegs [(0, 0x10), (15, 0x01)] (word 0x80F4)) (fun t =>
    t.getV 0 == 0x11 && t.getV 15 == 0) = true := by decide
/-- A17. -/
theorem test_subReg_borrow : stepsTo (setRegs [(0, 0x05), (1, 0x07)] (word 0x8015)) (fun t =>
    t.getV 0 == 0xFE && t.getV 15 == 0) = true := by decide
/-- A18. -/
theorem test_subReg_equal : stepsTo (setRegs [(0, 0x05), (1, 0x05)] (word 0x8015)) (fun t =>
    t.getV 0 == 0 && t.getV 15 == 1) = true := by decide
/-- A22. -/
theorem test_shrReg_ignores_y : stepsTo (setRegs [(2, 0x04), (3, 0xFF)] (word 0x8236)) (fun t =>
    t.getV 2 == 0x02 && t.getV 15 == 0 && t.getV 3 == 0xFF) = true := by decide
/-- A23. -/
theorem test_shrReg_flag_last : stepsTo (setRegs [(15, 0x03)] (word 0x8F06)) (·.getV 15 == 1) = true := by decide
/-- A24. -/
theorem test_subnReg : stepsTo (setRegs [(0, 0x05), (1, 0x07)] (word 0x8017)) (fun t =>
    t.getV 0 == 0x02 && t.getV 15 == 1) = true := by decide
/-- A27, A28. -/
theorem test_shlReg : stepsTo (setRegs [(2, 0x81)] (word 0x820E)) (fun t => t.getV 2 == 0x02 && t.getV 15 == 1) = true ∧
    stepsTo (setRegs [(2, 0x40)] (word 0x820E)) (fun t => t.getV 2 == 0x80 && t.getV 15 == 0) = true := by decide
/-- A33, for a given random byte. -/
theorem test_rndByte_with : (rndWith 0xFF 10 0x55 State.reset).getV 10 = 0x55 := by decide

/-! ### Index register and memory -/

/-- M1. -/
theorem test_ldIAddr : stepsTo (word 0xAFFF) (·.idx == 0xFFF) = true := by decide
/-- M4. -/
theorem test_addIVx_wraps : stepsTo (setRegs [(0, 0x02), (15, 0xAA)] { word 0xF01E with idx := 0xFFF }) (fun t =>
    t.idx == 0x001 && t.getV 15 == 0xAA) = true := by decide
/-- M6, M7. -/
theorem test_ldFVx : stepsTo (setRegs [(0, 0x0F)] (word 0xF029)) (·.idx == 0x09B) = true ∧
    stepsTo (setRegs [(0, 0x1A)] (word 0xF029)) (·.idx == 0x082) = true := by decide
/-- M11. -/
theorem test_ldBVx_top_of_memory : stepsTo (setRegs [(0, 100)] { word 0xF033 with idx := 0xFFD }) (fun t =>
    t.mem.peek 0xFFD == 1 && t.mem.peek 0xFFE == 0 && t.mem.peek 0xFFF == 0 && t.pc == 0x202) = true := by decide
/-- M12. -/
theorem test_ldBVx_fault : stepsTo (setRegs [(0, 100)] { word 0xF033 with idx := 0xFFE }) (fun t =>
    t.halted == some { fault := .memoryOutOfBounds .write, pc := 0x200, opcode := some 0xF033, addr := some 0x1000 } &&
    t.mem == (word 0xF033).mem && t.pc == 0x200) = true := by decide
/-- M13. -/
theorem test_storeRegs_one : stepsTo (setRegs [(0, 0x11), (1, 0x22)] { word 0xF055 with idx := 0x400 }) (fun t =>
    t.mem.peek 0x400 == 0x11 && t.mem.peek 0x401 == 0 && t.idx == 0x400) = true := by decide
/-- M15. -/
theorem test_storeRegs_fault : stepsTo (setRegs [(0, 1), (15, 16)] { word 0xFF55 with idx := 0xFF1 }) (fun t =>
    t.halted == some { fault := .memoryOutOfBounds .write, pc := 0x200, opcode := some 0xFF55, addr := some 0x1000 } &&
    t.mem == (word 0xFF55).mem) = true := by decide
/-- M16, its last two bytes. -/
theorem test_loadRegs_all : stepsTo (bytesAt 0x30E [0x1E, 0x1F] { word 0xFF65 with idx := 0x300 }) (fun t =>
    t.getV 14 == 0x1E && t.getV 15 == 0x1F && t.idx == 0x300) = true := by decide
/-- M18. -/
theorem test_loadRegs_fault : stepsTo (setRegs [(0, 1)] (bytesAt 0xFFF [0x77] { word 0xF165 with idx := 0xFFF }))
    (fun t =>
      t.halted == some { fault := .memoryOutOfBounds .read, pc := 0x200, opcode := some 0xF165, addr := some 0x1000 } &&
      t.getV 0 == 1) = true := by decide

/-! ### Display -/

/-- D2. -/
theorem test_drw_wraps_columns : stepsTo (setRegs [(0, 60)] (bytesAt 0x300 [0xFF] { word 0xD011 with idx := 0x300 }))
    (fun t => pixelsOn t.fb == [(0, 0), (1, 0), (2, 0), (3, 0), (60, 0), (61, 0), (62, 0), (63, 0)] &&
      t.getV 15 == 0) = true := by decide
/-- D5. -/
theorem test_drw_collision : stepsTo (pixel 0 0 (bytesAt 0x300 [0xC0] { word 0xD011 with idx := 0x300 }))
    (fun t => pixelsOn t.fb == [(1, 0)] && t.getV 15 == 1) = true := by decide
/-- D12, D13. -/
theorem test_cls : resultOf (pixel 10 10 (word 0x00E0)) = some (.unsupported 0x00E0) ∧
    stepsTo (pixel 10 10 (word 0x00E0)) (fun t => pixelsOn t.fb == [(10, 10)]) = true ∧
    stepsTo { pixel 10 10 (setRegs [(15, 1)] (word 0x00E0)) with cfg := { extCls := true, fontInstalled := false } }
      (fun t => pixelsOn t.fb == [] && t.getV 15 == 1) = true := by decide

/-! ### Keys and timers -/

/-- K2, K3. -/
theorem test_skp : stepsTo (setRegs [(1, 0x15)] (press [5] (word 0xE19E))) (·.pc == 0x204) = true ∧
    stepsTo (setRegs [(1, 5)] (word 0xE19E)) (·.pc == 0x202) = true := by decide
/-- K4, K5. -/
theorem test_sknp : stepsTo (setRegs [(1, 5)] (word 0xE1A1)) (·.pc == 0x204) = true ∧
    stepsTo (setRegs [(1, 5)] (press [5] (word 0xE1A1))) (·.pc == 0x202) = true := by decide
/-- K7. -/
theorem test_ldVxK_waits : resultOf (word 0xF30A) = some .waiting ∧
    stepsTo (word 0xF30A) (fun t => t.pc == 0x200 && t.getV 3 == 0) = true := by decide
/-- K8. -/
theorem test_ldVxK_lowest : stepsTo (press [3, 9] (word 0xF40A)) (fun t => t.getV 4 == 3 && t.pc == 0x202) = true := by
  decide
/-- K10. -/
theorem test_ldVxDt : stepsTo { word 0xF207 with dt := 0x3C } (·.getV 2 == 0x3C) = true := by decide
/-- K11. -/
theorem test_ldDtVx : stepsTo (setRegs [(1, 0x3C)] (word 0xF115)) (·.dt == 0x3C) = true := by decide
/-- K13, K14. -/
theorem test_ldStVx : stepsTo (setRegs [(1, 1)] (word 0xF118)) (fun t => t.st == 1 && buzzer t) = true ∧
    stepsTo { word 0xF118 with st := 5 } (fun t => t.st == 0 && !buzzer t) = true := by decide
/-- A34. -/
theorem test_unsupported : resultOf (word 0x8018) = some (.unsupported 0x8018) ∧
    stepsTo (word 0x8018) (·.pc == 0x202) = true := by decide

/-! ### Host operations -/

/-- H2. -/
theorem test_tickTimers : ((callHost .tickTimers { State.reset with dt := 2, st := 1 }).1.dt,
    (callHost .tickTimers { State.reset with dt := 2, st := 1 }).1.st) = (1, 0) := by decide
/-- W7. -/
theorem test_accessors : (callHost (.getPixel 64 0) State.reset).2 = .outOfRange [64, 0] ∧
    (callHost (.getPixel 0 32) State.reset).2 = .outOfRange [0, 32] ∧
    (callHost (.getPixel 63 31) State.reset).2 = .pixel false ∧
    (callHost (.setKey 16 true) State.reset).2 = .outOfRange [16] ∧
    (callHost (.setKey 15 true) State.reset).1.key[15] = true := by decide
/-- H6. -/
theorem test_load : ((callHost (.load [0x12, 0x00]) (bytesAt 0x200 [0x55] { State.reset with pc := 0x20A })).1.mem,
    (callHost (.load [0x12, 0x00]) (bytesAt 0x200 [0x55] { State.reset with pc := 0x20A })).1.pc)
      = ([(0x200, 0x12)], 0x20A) := by decide
/-- D14: glyph A at 0x082; and the last byte of the font (93_implementation_defined.md, part C). -/
theorem test_installFont :
    let m := (callHost .installFont (powerOn { extCls := false, fontInstalled := true })).1.mem
    (List.range 5).map (fun k => m.peek (0x082 + k)) = [0xF0, 0x90, 0xF0, 0x90, 0x90] ∧ m.peek 0x09F = 0x80 ∧
    m.peek 0x0A0 = 0 := by decide
/-- S7: `reset` clears the halted state. -/
theorem test_reset_from_halted : (callHost .reset { word 0x6001 with halted := some someFault }).1 = State.reset := by
  decide

/-! ### Witnesses: for each obligation with hypotheses, a state and operands that meet them all

A witness of an obligation with several clauses has one part for each, at a boundary of its range. -/

/-- The word of a row and its mask, for every `RowDecodes` of the obligations, each with other operand bits set. -/
theorem witness_RowDecodes :
    (0x1FFF : Word) &&& 0xF000 = 0x1000 ∧ (0x2FFF : Word) &&& 0xF000 = 0x2000 ∧ (0x3FFF : Word) &&& 0xF000 = 0x3000 ∧
    (0x4FFF : Word) &&& 0xF000 = 0x4000 ∧ (0x6FFF : Word) &&& 0xF000 = 0x6000 ∧ (0x7FFF : Word) &&& 0xF000 = 0x7000 ∧
    (0xAFFF : Word) &&& 0xF000 = 0xA000 ∧ (0xBFFF : Word) &&& 0xF000 = 0xB000 ∧ (0xCFFF : Word) &&& 0xF000 = 0xC000 ∧
    (0xDFFF : Word) &&& 0xF000 = 0xD000 ∧ (0x5FF0 : Word) &&& 0xF00F = 0x5000 ∧ (0x9FF0 : Word) &&& 0xF00F = 0x9000 ∧
    (0x8FF0 : Word) &&& 0xF00F = 0x8000 ∧ (0x8FF1 : Word) &&& 0xF00F = 0x8001 ∧ (0x8FF2 : Word) &&& 0xF00F = 0x8002 ∧
    (0x8FF3 : Word) &&& 0xF00F = 0x8003 ∧ (0x8FF4 : Word) &&& 0xF00F = 0x8004 ∧ (0x8FF5 : Word) &&& 0xF00F = 0x8005 ∧
    (0x8FF6 : Word) &&& 0xF00F = 0x8006 ∧ (0x8FF7 : Word) &&& 0xF00F = 0x8007 ∧ (0x8FFE : Word) &&& 0xF00F = 0x800E ∧
    (0xEF9E : Word) &&& 0xF0FF = 0xE09E ∧ (0xEFA1 : Word) &&& 0xF0FF = 0xE0A1 ∧ (0xFF07 : Word) &&& 0xF0FF = 0xF007 ∧
    (0xFF0A : Word) &&& 0xF0FF = 0xF00A ∧ (0xFF15 : Word) &&& 0xF0FF = 0xF015 ∧ (0xFF18 : Word) &&& 0xF0FF = 0xF018 ∧
    (0xFF1E : Word) &&& 0xF0FF = 0xF01E ∧ (0xFF29 : Word) &&& 0xF0FF = 0xF029 ∧ (0xFF33 : Word) &&& 0xF0FF = 0xF033 ∧
    (0xFF55 : Word) &&& 0xF0FF = 0xF055 ∧ (0xFF65 : Word) &&& 0xF0FF = 0xF065 ∧ (0x00EE : Word) &&& 0xFFFF = 0x00EE := by
  decide

theorem witness_DecodeOfEncodeIsIdentity : Instr.wf false (.drw 15 15 15) = true ∧ Instr.wf true .cls = true ∧
    Instr.wf false (.unsupported 0xFFFF) = true := by decide

theorem witness_ExtClsDecidesOnlyClearScreen : (0x00EE : Word) ≠ 0x00E0 := by decide

/-- The last `pc` from which a fetch succeeds. -/
theorem witness_StepRunsDecodedInstruction :
    let s := programAt 0xFFE [0x6F, 0xAB]
    s.Running ∧ s.pc.toNat + 1 < 4096 ∧ Instr.wf s.cfg.extCls (.ldByte 15 0xAB) = true ∧
    s.mem.peek s.pc.toNat ++ s.mem.peek (s.pc.toNat + 1) = encode (.ldByte 15 0xAB) := by
  refine ⟨rfl, ?_⟩
  decide

theorem witness_FetchIsTwoBytesBigEndianChecked :
    (0xFFE : Word).toNat + 1 < 4096 ∧ (0xFFF : Word).toNat = 0xFFF ∧ 4096 ≤ (0x1000 : Word).toNat := by decide

theorem witness_FetchIsTwoBytesBigEndianChecked_step : (programAt 0xFFF []).Running ∧
    (programAt 0xFFF []).pc.toNat = 0xFFF ∧ (programAt 0x1000 []).Running ∧
    4096 ≤ (programAt 0x1000 []).pc.toNat := by
  refine ⟨rfl, by decide, rfl, by decide⟩

theorem witness_HaltedStepChangesNothing :
    ({ word 0x6001 with halted := some someFault } : State).halted = some someFault := rfl

theorem witness_StepAlwaysReturns : (word 0xFF0A).Running ∧
    fetchWord (word 0xFF0A).mem (word 0xFF0A).pc = .ok (encode (.ldVxK 15)) ∧
    ∀ k : Key, (word 0xFF0A).key[k] = false := by
  refine ⟨rfl, ?_⟩
  decide

/-- A step that changes DT, one that changes ST, and a host call that changes a key. -/
theorem witness_StepChangesTimersOnlyByTheirLoads :
    (∃ t, step (setRegs [(1, 5)] (word 0xF115)) = .next t ∧ t.dt ≠ (word 0xF115).dt) ∧
    (∃ t, step (setRegs [(1, 5)] (word 0xF118)) = .next t ∧ t.st ≠ (word 0xF118).st) ∧
    (callHost (.setKey 15 true) State.reset).1.key ≠ State.reset.key ∧
    (callHost .reset (press [0] State.reset)).1.key ≠ (press [0] State.reset).key := by
  refine ⟨⟨_, rfl, by decide⟩, ⟨_, rfl, by decide⟩, by decide, by decide⟩

/-- A step that faults after its fetch, and one whose fetch faults. -/
theorem witness_FaultIsPreciseAndCommitsNothing :
    ((word 0x00EE).Running ∧ fetchWord (word 0x00EE).mem (word 0x00EE).pc = .ok 0x00EE ∧
      ∃ t, step (word 0x00EE) = .next t ∧
        t.halted = some { fault := .stackUnderflow, pc := 0x200, opcode := some 0x00EE, addr := none }) ∧
    ((programAt 0xFFF []).Running ∧
      fetchWord (programAt 0xFFF []).mem (programAt 0xFFF []).pc =
        .error { fault := .memoryOutOfBounds .fetch, addr := some 0x1000 } ∧
      ∃ t, step (programAt 0xFFF []) = .next t ∧ t.halted =
        some { fault := .memoryOutOfBounds .fetch, pc := 0xFFF, opcode := none, addr := some 0x1000 }) := by
  refine ⟨⟨rfl, by decide, _, rfl, by decide⟩, ⟨rfl, by decide, _, rfl, by decide⟩⟩

/-- A step that raises no fault, from the last address that can be fetched, and one that raises one. -/
theorem witness_NextPcFollowsTheTable :
    ((programAt 0xFFE [0x30, 0x00]).Running ∧
      fetchWord (programAt 0xFFE [0x30, 0x00]).mem (programAt 0xFFE [0x30, 0x00]).pc = .ok 0x3000 ∧
      ∃ t, step (programAt 0xFFE [0x30, 0x00]) = .next t ∧ t.halted = none) ∧
    ((word 0x00EE).Running ∧ fetchWord (word 0x00EE).mem (word 0x00EE).pc = .ok 0x00EE ∧
      ∃ t, step (word 0x00EE) = .next t ∧ t.halted ≠ none) := by
  refine ⟨⟨rfl, by decide, _, rfl, by decide⟩, ⟨rfl, by decide, _, rfl, by decide⟩⟩

theorem witness_RegistersChangeOnlyAsNamed :
    ∃ t, exec (.addReg 0 1) (setRegs [(0, 0xFF), (1, 0x01)] State.reset) = .next t ∧
      t.getV 15 ≠ (setRegs [(0, 0xFF), (1, 0x01)] State.reset).getV 15 := by
  refine ⟨_, rfl, ?_⟩
  decide

theorem witness_OnlyRndReadsTheRandomByte :
    (∀ op x nn, fetchWord (word 0x6001).mem (word 0x6001).pc = .ok op →
      decode (word 0x6001).cfg.extCls op ≠ .rndByte x nn) ∧ ∃ t, step (word 0x6001) = .next t := by
  refine ⟨fun op x nn h => ?_, _, rfl⟩
  have hop : fetchWord (word 0x6001).mem (word 0x6001).pc = .ok 0x6001 := by decide
  obtain rfl : (0x6001 : Word) = op := Except.ok.inj (hop.symm.trans h)
  rw [show decode (word 0x6001).cfg.extCls 0x6001 = .ldByte 0 0x01 by decide]
  exact Instr.noConfusion

/-- S11. -/
theorem witness_StoredInstructionRunsNext :
    let s := setRegs [(0, 0x12), (1, 0x02)] { word 0xF155 with idx := 0x202 }
    s.Running ∧ s.mem.wf = true ∧ s.pc.toNat + 1 < 4096 ∧ s.idx = s.pc + 2 ∧ 1 ≤ (1 : Reg).val ∧
    s.idx.toNat + (1 : Reg).val < 4096 ∧
    s.mem.peek s.pc.toNat ++ s.mem.peek (s.pc.toNat + 1) = encode (.storeRegs 1) := by
  refine ⟨rfl, ?_⟩
  decide

theorem witness_ResetRestoresTheConstructedMachine :
    (word 0x6001).cfg = State.reset.cfg ∧ (word 0x6001).draws = State.reset.draws := by decide

/-- A state that meets the invariant with every bound reached. -/
theorem witness_inv : State.Inv { word 0x6001 with idx := 0x0FFF, stack := Vector.replicate 16 0x1000 } ∧
    State.Inv { State.reset with pc := 0x10FE } := by
  refine ⟨⟨by decide, by decide, by decide, by decide, fun r h => ?_⟩,
    ⟨by decide, by decide, by decide, by decide, fun r h => ?_⟩⟩
  all_goals cases h

theorem witness_StepKeepsTheInvariant :
    State.Inv { word 0x6001 with idx := 0x0FFF, stack := Vector.replicate 16 0x1000 } ∧
    ∃ t, step { word 0x6001 with idx := 0x0FFF, stack := Vector.replicate 16 0x1000 } = .next t :=
  ⟨witness_inv.1, _, rfl⟩

theorem witness_ReachableStatesMeetTheInvariant : State.Inv { State.reset with pc := 0x10FE } ∧
    State.Reachable (runHost [.setKey 3 true, .step] (powerOn Config.default)) :=
  ⟨witness_inv.2, Config.default, [.setKey 3 true, .step], rfl⟩

theorem witness_HaltedUntilReset :
    ({ word 0x6001 with halted := some someFault } : State).halted = some someFault ∧
    HostCall.reset ∉ [.step, .tickTimers, .setKey 3 true, .load [0x12, 0x00], .installFont] := by
  refine ⟨rfl, ?_⟩
  decide

/-- The first free slot and the last (CF4, CF5). -/
theorem witness_CallPushesReturnAddress : (word 0x2ABC).sp.val < 16 ∧
    ({ word 0x2ABC with sp := 15 } : State).sp.val < 16 := by decide

/-- CF6. -/
theorem witness_CallWithFullStackOverflows : ({ word 0x2ABC with sp := 16 } : State).sp.val = 16 := by decide

/-- One slot taken, all 16, and none. -/
theorem witness_ReturnPopsOrUnderflows : ({ word 0x00EE with sp := 1 } : State).sp.val = (0 : Fin 16).val + 1 ∧
    ({ word 0x00EE with sp := 16 } : State).sp.val = (15 : Fin 16).val + 1 ∧ (word 0x00EE).sp.val = 0 := by decide

/-- The call at `sp = 15`, and the state after it. -/
theorem witness_ReturnLandsAfterTheCall : ({ word 0x2ABC with sp := 15 } : State).sp.val < 16 ∧
    ∃ t, exec (.callAddr 0xABC) { word 0x2ABC with sp := 15 } = .next t ∧ t.sp.val = 16 ∧ t.stack[15] = 0x202 := by
  refine ⟨by decide, _, rfl, ?_⟩
  decide

/-- W4: sixteen calls. -/
theorem witness_SixteenCallsSucceedSeventeenthFaults : (word 0x2200).Running ∧ (word 0x2200).sp.val = 0 ∧
    (List.replicate 16 (0x200 : Addr12)).length = 16 := by
  refine ⟨rfl, ?_⟩
  decide

theorem witness_SkipOnImmediate : (setRegs [(3, 0x10)] State.reset).getV 3 = 0x10 ∧
    (setRegs [(3, 0x10)] State.reset).getV 3 ≠ 0x11 := by decide

theorem witness_SkipOnRegisters : (setRegs [(1, 7), (2, 7)] State.reset).getV 1 =
      (setRegs [(1, 7), (2, 7)] State.reset).getV 2 ∧
    (setRegs [(1, 7), (2, 8)] State.reset).getV 1 ≠ (setRegs [(1, 7), (2, 8)] State.reset).getV 2 := by decide

/-- CF16, CF17: a low nibble that is not 0. -/
theorem witness_SkipOnRegisters_unsupported : ((0x5121 : Word) &&& 0xF000 = 0x5000 ∧ (0x5121 : Word) &&& 0x000F ≠ 0) ∧
    ((0x912F : Word) &&& 0xF000 = 0x9000 ∧ (0x912F : Word) &&& 0x000F ≠ 0) := by decide

theorem witness_CopyAndLogicWriteOnlyVx :
    (Instr.ldReg 15 1, fun (_ b : Bool) => b) ∈ [(Instr.ldReg 15 1, fun (_ b : Bool) => b),
      (Instr.orReg 15 1, fun a b => a || b), (Instr.andReg 15 1, fun a b => a && b),
      (Instr.xorReg 15 1, fun a b => a != b)] := List.mem_cons_self

theorem witness_SubtractSetsNotBorrow :
    (Instr.subReg 0 1, (5 : Byte), (7 : Byte)) ∈ [(Instr.subReg 0 1, 5, 7), (Instr.subnReg 0 1, 7, 5)] := by decide

/-- M11: the last address at which the three digits fit. -/
theorem witness_BcdStoresThreeDigits : (word 0xF033).mem.wf = true ∧
    ({ word 0xF033 with idx := 0xFFD } : State).idx.toNat + 2 < 4096 := by decide

/-- M14: the last address at which the whole block fits. -/
theorem witness_StoreRegistersToMemory : (word 0xFF55).mem.wf = true ∧
    ({ word 0xFF55 with idx := 0xFF0 } : State).idx.toNat + (15 : Reg).val < 4096 := by decide

/-- M17: one register at the last address. -/
theorem witness_LoadRegistersFromMemory :
    ({ word 0xF065 with idx := 0xFFF } : State).idx.toNat + (0 : Reg).val < 4096 := by decide

/-- The last `pc` of memory and the first past it; and for the other accesses (D7, M18, M15, M12) the first address at
which each of them faults. -/
theorem witness_MemoryOutOfBoundsFaults : (programAt 0xFFF []).Running ∧ 4095 ≤ (programAt 0xFFF []).pc.toNat ∧
    4095 ≤ (programAt 0x1000 []).pc.toNat ∧ (65535 : Nat) < 65536 ∧ (0xFFF : Word).toNat ≤ 0x0FFF ∧
    (0 < (2 : Fin 16).val ∧ 4096 ≤ (0xFFF : Word).toNat + (2 : Fin 16).val - 1) ∧
    4096 ≤ (0xFFF : Word).toNat + (1 : Reg).val ∧ 4096 ≤ (0xFF1 : Word).toNat + (15 : Reg).val ∧
    4096 ≤ (0xFFE : Word).toNat + 2 := by
  refine ⟨rfl, ?_⟩
  decide

theorem witness_ReadGivesLastWrite : Memory.wf [(0x200, 0x12)] = true ∧ 0xFFF < 4096 := by decide

/-- D1 with no rows, D8 with one row at the last address. -/
theorem witness_DrawTogglesTheCoveredPixels :
    ((0 : Fin 16).val = 0 ∨ (0xFFF : Word).toNat + (0 : Fin 16).val - 1 < 4096) ∧
    ((1 : Fin 16).val = 0 ∨ (0xFFF : Word).toNat + (1 : Fin 16).val - 1 < 4096) := by decide

/-- D5: a pixel goes off. D6: none does. -/
theorem witness_DrawTogglesTheCoveredPixels_collision :
    (∃ t, exec (.drw 0 1 1) (pixel 0 0 (bytesAt 0x300 [0xC0] { word 0xD011 with idx := 0x300 })) = .next t ∧
      (pixel 0 0 State.reset).fb.get 0 0 = true ∧ t.fb.get 0 0 = false) ∧
    (∃ t, exec (.drw 0 1 1) (pixel 5 0 (bytesAt 0x300 [0xC0] { word 0xD011 with idx := 0x300 })) = .next t ∧
      ¬∃ px py, (pixel 5 0 State.reset).fb.get px py = true ∧ t.fb.get px py = false) := by
  refine ⟨⟨_, rfl, by decide, by decide⟩, ⟨_, rfl, ?_⟩⟩
  rintro ⟨px, py, h1, h2⟩
  have hp : px = 5 ∧ py = 0 := by
    have := Framebuffer.toggle_get State.reset.fb 5 px 0 py
    rw [show (pixel 5 0 State.reset).fb = State.reset.fb.toggle 5 0 from rfl, this] at h1
    rw [show State.reset.fb = Framebuffer.clear from rfl, Framebuffer.clear_get] at h1
    simpa using h1
  obtain ⟨rfl, rfl⟩ := hp
  revert h2
  decide

/-- W5: two rows with set bits where no pixel is on; and two rows of zeros. -/
theorem witness_DrawingTwiceRestoresTheScreen :
    ((0 : Reg) ≠ 15 ∧ (1 : Reg) ≠ 15) ∧
    (let s := setRegs [(0, 10), (1, 5)] (bytesAt 0x300 [0x3C, 0x81] { word 0xD012 with idx := 0x300 })
     s.idx.toNat + (2 : Fin 16).val - 1 < 4096 ∧ (∀ px py, SpriteCovers s 0 1 2 px py → s.fb.get px py = false) ∧
      ∃ px py, SpriteCovers s 0 1 2 px py) ∧
    (let s := ({ word 0xD012 with idx := 0x300 } : State)
     (∀ px py, SpriteCovers s 0 1 2 px py → s.fb.get px py = false) ∧ ¬∃ px py, SpriteCovers s 0 1 2 px py) := by
  refine ⟨by decide, ⟨by decide, fun px py _ => Framebuffer.clear_get px py, 12, 5, 0, 2, ?_⟩,
    fun px py _ => Framebuffer.clear_get px py, ?_⟩
  · decide
  · rintro ⟨px, py, r, c, hr, hc, hb, _⟩
    have : r = 0 ∨ r = 1 := by
      have : r < 2 := hr
      omega
    rcases this with rfl | rfl
    · rw [show ({ word 0xD012 with idx := 0x300 } : State).mem.peek
        (({ word 0xD012 with idx := 0x300 } : State).idx.toNat + 0) = 0 by decide] at hb
      simp at hb
    · rw [show ({ word 0xD012 with idx := 0x300 } : State).mem.peek
        (({ word 0xD012 with idx := 0x300 } : State).idx.toNat + 1) = 0 by decide] at hb
      simp at hb

/-- Fifteen rows, the most of a DXYN; and another order of the pixels of two. -/
theorem witness_DrawOrderDoesNotMatter : (List.replicate 15 (0xFF : Byte)).length ≤ 15 ∧
    [(0x80 : Byte), 0x01].length ≤ 15 ∧
    ([(17, 6), (10, 5)] : List (Fin 64 × Fin 32)).Perm (spritePixels 10 5 0 [0x80, 0x01]) := by
  refine ⟨by decide, by decide, ?_⟩
  rw [show spritePixels 10 5 0 [0x80, 0x01] = [(10, 5), (17, 6)] by decide]
  exact List.Perm.swap _ _ _

theorem witness_ClearScreenUnderExtCls :
    ({ word 0x00E0 with cfg := { extCls := true, fontInstalled := false } } : State).cfg.extCls = true ∧
    (word 0x00E0).cfg.extCls = false := by decide

/-- K2 and K3: a key named with a high nibble, pressed and not. -/
theorem witness_SkipOnKey :
    let s := setRegs [(1, 0x1F)] (press [15] State.reset)
    (15 : Key).val = (s.getV 1).toNat % 16 ∧ s.key[(15 : Key)] = true ∧
    (setRegs [(1, 0x1F)] State.reset).key[(15 : Key)] = false := by decide

/-- K8 and K7; the last key alone pressed as well. -/
theorem witness_WaitForKeyTakesLowestPressed :
    ((press [3, 9] State.reset).key[(3 : Key)] = true ∧
      ∀ j : Key, j < 3 → (press [3, 9] State.reset).key[j] = false) ∧
    ((press [15] State.reset).key[(15 : Key)] = true ∧
      ∀ j : Key, j < 15 → (press [15] State.reset).key[j] = false) ∧
    ∀ k : Key, State.reset.key[k] = false := by decide

theorem witness_UnsupportedWordIsSkippedWithDiagnostic : (word 0x8018).Running ∧
    fetchWord (word 0x8018).mem (word 0x8018).pc = .ok 0x8018 ∧
    decode (word 0x8018).cfg.extCls 0x8018 = .unsupported 0x8018 := by
  refine ⟨rfl, ?_⟩
  decide

theorem witness_KeyAndPixelAccessorsCheckTheirRange : (¬(0 ≤ (16 : Int) ∧ (16 : Int) < 16)) ∧
    (¬(0 ≤ (-1 : Int) ∧ (-1 : Int) < 16)) ∧
    (¬(0 ≤ (64 : Int) ∧ (64 : Int) < 64) ∨ ¬(0 ≤ (0 : Int) ∧ (0 : Int) < 32)) ∧
    (¬(0 ≤ (63 : Int) ∧ (63 : Int) < 64) ∨ ¬(0 ≤ (32 : Int) ∧ (32 : Int) < 32)) := by decide

/-- W9: an image of 3584 bytes, and one of 3585. -/
theorem witness_LoadCopiesTheImageOrRefusesIt : (List.replicate 3584 (0xAB : Byte)).length ≤ 3584 ∧
    State.reset.mem.wf = true ∧ 3584 < (List.replicate 3585 (0xAB : Byte)).length := by
  rw [List.length_replicate, List.length_replicate]
  decide

theorem witness_OversizedImageIsLoadError : (List.replicate 3585 (0xAB : Byte)).length > 3584 := by
  rw [List.length_replicate]
  decide

theorem witness_BootPlacesFontAndImage : (List.replicate 3584 (0xAB : Byte)).length ≤ 3584 ∧
    ({ extCls := false, fontInstalled := true } : Config).fontInstalled = true ∧
    Config.default.fontInstalled = false := by
  rw [List.length_replicate]
  decide

theorem witness_InstallFontWritesTheGlyphs :
    (powerOn { extCls := false, fontInstalled := true }).cfg.fontInstalled = true ∧
    (powerOn { extCls := false, fontInstalled := true }).mem.wf = true ∧
    State.reset.cfg.fontInstalled = false := by decide

end Sys2Proof.Tests
end

section
/-! SUPPORT. The invariant of R33: one rule for each operation on the state, for the end of an instruction and for a
step; then every host operation, every run of them, and every reachable state. -/

namespace Sys2Proof.Machine

/-! ### What a failing operation raises -/

/-- A push fails only with `StackOverflow` (R111). -/
theorem push_eq_error {a : Word} {s : State} {e : Trap} (h : push a s = .error e) :
    e = { fault := .stackOverflow, addr := none } := by
  by_cases hs : s.sp.val < 16
  · rw [push_ok hs] at h
    cases h
  · rw [push_error (by omega)] at h
    cases h
    rfl

/-- A pop fails only with `StackUnderflow` (R112). -/
theorem popPc_eq_error {s : State} {e : Trap} (h : popPc s = .error e) :
    e = { fault := .stackUnderflow, addr := none } := by
  by_cases hs : 0 < s.sp.val
  · rw [popPc_ok hs] at h
    cases h
  · rw [popPc_error (by omega)] at h
    cases h
    rfl

/-- A block read that begins inside memory fails only at the first address past it (R113, R117). -/
theorem readBlock_eq_error {m : Memory} {a n : Nat} {e : Trap} (ha : a < memSize) (h : readBlock m a n = .error e) :
    e = outOfBounds .read memSize := by
  by_cases hn : a + n ≤ memSize
  · rw [readBlock_ok hn] at h
    cases h
  · rw [readBlock_error (by omega) (by omega), Nat.max_eq_right ha.le] at h
    cases h
    rfl

/-- A block write that begins inside memory fails only at the first address past it (R113, R117). -/
theorem writeBlock_eq_error {m : Memory} {a : Nat} {bs : List Byte} {e : Trap} (ha : a < memSize)
    (h : writeBlock m a bs = .error e) : e = outOfBounds .write memSize := by
  by_cases hn : a + bs.length ≤ memSize
  · obtain ⟨m', hok, -⟩ := writeBlock_ok_frame (m := m) hn
    rw [hok] at h
    cases h
  · have hbs : bs ≠ [] := by
      rintro rfl
      exact hn ha.le
    rw [writeBlock_error hbs (by omega), Nat.max_eq_right ha.le] at h
    cases h
    rfl

/-- The record of a failed fetch is as R110 describes: no opcode, and the first address past memory. -/
theorem faultRecord_fetch_wf {s : State} {e : Trap} (h : fetchWord s.mem s.pc = .error e) :
    (faultRecord none e s).wf = true := by
  obtain ⟨hpc, rfl⟩ := fetchWord_error_eq h
  by_cases hlt : s.pc.toNat < memSize
  · have hnext : s.pc.toNat + 1 = 0x1000 := Nat.le_antisymm hlt hpc
    simp [faultRecord, FaultRecord.wf, outOfBounds, hlt, hnext]
  · simp [faultRecord, FaultRecord.wf, outOfBounds, hlt]

/-! ### One rule for each operation on the state -/

/-- The invariant speaks only of `I`, `pc`, the stack slots, memory and `halted`. -/
theorem State.Inv.congr {s t : State} (hi : s.Inv) (hidx : t.idx = s.idx) (hpc : t.pc = s.pc)
    (hstack : t.stack = s.stack) (hmem : t.mem.wf = true) (hhalted : t.halted = s.halted) : t.Inv where
  idx_le := hidx ▸ hi.idx_le
  pc_le := hpc ▸ hi.pc_le
  stack_le := hstack ▸ hi.stack_le
  mem_wf := hmem
  halted_wf r hr := by
    rw [hpc]
    exact hi.halted_wf r (hhalted ▸ hr)

theorem State.Inv.setV {s : State} (hi : s.Inv) (r : Reg) (b : Byte) : (s.setV r b).Inv :=
  hi.congr rfl rfl rfl hi.mem_wf rfl

theorem State.Inv.setVFlag {s : State} (hi : s.Inv) (x : Reg) (r : Byte × Bool) : (s.setVFlag x r).Inv :=
  (hi.setV x r.1).setV regF (flagByte r.2)

/-- Every write to `I` is masked to 12 bits (R20). -/
theorem State.Inv.setIdx {s : State} (hi : s.Inv) (w : Word) : (s.setIdx w).Inv :=
  { hi with
    idx_le := by
      rw [State.setIdx_idx, mask12_toNat]
      omega }

theorem State.Inv.setMem {s : State} (hi : s.Inv) {m : Memory} (hm : m.wf = true) :
    State.Inv { s with mem := m } :=
  hi.congr rfl rfl rfl hm rfl

/-- On a running machine any target up to 0x10FE will do: there is no fault record to name `pc`. -/
theorem State.Inv.jump {s : State} (hi : s.Inv) (hrun : s.Running) {target : Word} (ht : target.toNat ≤ 0x10FE) :
    (s.jump target).Inv :=
  { hi with
    pc_le := ht
    halted_wf := fun _ hr => nomatch hrun.symm.trans hr }

/-- The next instruction of a fetched one is at most at 0x1000, and the one after it at most at 0x1002. -/
theorem State.Inv.skipIf {s : State} (hi : s.Inv) (hrun : s.Running) (hpc : s.pc.toNat + 1 < memSize) (c : Bool) :
    (s.skipIf c).Inv := by
  refine hi.jump hrun ?_
  simp only [memSize] at hpc
  split <;> bv_omega

theorem State.Inv.advance {s : State} (hi : s.Inv) (hrun : s.Running) (hpc : s.pc.toNat + 1 < memSize) :
    s.advance.Inv :=
  hi.skipIf hrun hpc false

/-- Taking a fault keeps the invariant when the record is as R110 describes; it names `pc` by construction (R65). -/
theorem State.Inv.takeFault {s : State} (hi : s.Inv) {opcode : Option Word} {e : Trap}
    (hw : (faultRecord opcode e s).wf = true) : (takeFault opcode e s).Inv :=
  { hi with
    halted_wf := by
      rintro r ⟨⟩
      exact ⟨hw, rfl⟩ }

/-- A pushed address bounds its slot. -/
theorem State.Inv.push {s t : State} (hi : s.Inv) {a : Word} (ha : a.toNat ≤ 0x1000) (h : push a s = .ok t) :
    t.Inv := by
  obtain ⟨hs, rfl⟩ := push_eq_ok h
  refine { hi with stack_le := fun k => ?_ }
  rw [Fin.getElem_fin, Vector.getElem_set]
  split
  · exact ha
  · exact hi.stack_le k

/-- A popped address is one of the slots. -/
theorem State.Inv.popPc {s t : State} (hi : s.Inv) (hrun : s.Running) (h : popPc s = .ok t) : t.Inv := by
  obtain ⟨hs, rfl⟩ := popPc_eq_ok h
  have hslot := hi.stack_le ⟨s.sp.val - 1, by omega⟩
  exact { hi.jump hrun (hslot.trans (by decide)) with }

/-! ### An instruction -/

/-- The end of an instruction keeps the invariant when its writes do and the fault it may raise has a record as R110
describes. -/
theorem commit_keeps_inv {α : Type} {i : Instr} {s t : State} {r : Except Trap α} {f : α → State} (hi : s.Inv)
    (h : commit i s (r.map f) = .next t) (hok : ∀ a, r = .ok a → (f a).Inv)
    (herr : ∀ e, r = .error e → (faultRecord (some (encode i)) e s).wf = true) : t.Inv := by
  rcases commit_cases h with h | ⟨e, he, rfl⟩
  · obtain ⟨a, ha, rfl⟩ := map_eq_ok h
    exact hok a ha
  · exact hi.takeFault (herr e (map_eq_error he))

/-- An instruction fetched by a running machine keeps the invariant. -/
theorem exec_keeps_inv {i : Instr} {s t : State} (hi : s.Inv) (hrun : s.Running) (hpc : s.pc.toNat + 1 < memSize)
    (h : exec i s = .next t) : t.Inv := by
  have hidx : s.idx.toNat < memSize := Nat.lt_succ_of_le hi.idx_le
  have hadvance {u : State} (hu : u.Inv) (hr : u.halted = s.halted) (hp : u.pc = s.pc) : u.advance.Inv :=
    hu.advance (hr.trans hrun) (hp ▸ hpc)
  cases i
  case jpAddr nnn =>
    cases h
    exact hi.jump hrun (by rw [addrWord_toNat]; omega)
  case jpV0 nnn =>
    cases h
    exact hi.jump hrun (by rw [offsetTarget_toNat]; omega)
  case callAddr nnn =>
    refine commit_keeps_inv hi h (fun u hu => ?_) (fun e he => ?_)
    · have hret : (s.pc + 2).toNat ≤ 0x1000 := by
        simp only [memSize] at hpc
        bv_omega
      have hru : u.Running := by
        obtain ⟨_, rfl⟩ := push_eq_ok hu
        exact hrun
      exact (hi.push hret hu).jump hru (by rw [addrWord_toNat]; omega)
    · rw [push_eq_error he]
      rfl
  case ret =>
    rcases commit_cases h with h | ⟨e, he, rfl⟩
    · exact hi.popPc hrun h
    · refine hi.takeFault ?_
      rw [popPc_eq_error he]
      rfl
  case seByte | sneByte | seReg | sneReg | skp | sknp =>
    cases h
    exact hi.skipIf hrun hpc _
  case ldIAddr | addIVx | ldFVx =>
    cases h
    exact hadvance (hi.setIdx _) rfl rfl
  case ldBVx | storeRegs =>
    refine commit_keeps_inv hi h (fun m hm => ?_) (fun e he => ?_)
    · exact hadvance (hi.setMem (writeBlock_wf hi.mem_wf hm)) rfl rfl
    · rw [writeBlock_eq_error hidx he]
      rfl
  case drw | loadRegs =>
    refine commit_keeps_inv hi h (fun bs _ => ?_) (fun e he => ?_)
    · exact hadvance (hi.congr rfl rfl rfl hi.mem_wf rfl) rfl rfl
    · rw [readBlock_eq_error hidx he]
      rfl
  case cls =>
    cases h
    split
    · exact hadvance (hi.congr rfl rfl rfl hi.mem_wf rfl) rfl rfl
    · exact hi.advance hrun hpc
  case ldVxK x =>
    cases h
    split
    · exact hadvance (hi.setV x _) rfl rfl
    · exact hi
  case addReg | subReg | shrReg | subnReg | shlReg =>
    cases h
    exact hadvance (hi.setVFlag _ _) rfl rfl
  case ldByte | addByte | ldReg | orReg | andReg | xorReg | ldVxDt =>
    cases h
    exact hadvance (hi.setV _ _) rfl rfl
  case rndByte x nn =>
    cases h
    exact (hadvance (hi.setV x _) rfl rfl).congr rfl rfl rfl hi.mem_wf rfl
  case ldDtVx | ldStVx =>
    cases h
    exact hadvance (hi.congr rfl rfl rfl hi.mem_wf rfl) rfl rfl
  case unsupported =>
    cases h
    exact hi.advance hrun hpc

/-- Settles O20: a step does nothing, takes the fault of the fetch, or runs an instruction fetched inside memory. -/
theorem stepKeepsTheInvariant : Obligations.StepKeepsTheInvariant := by
  intro s t hi h
  rcases step_cases h with ⟨_, _, rfl⟩ | ⟨_, e, he, rfl⟩ | ⟨hrun, op, hf, hx⟩
  · exact hi
  · exact hi.takeFault (faultRecord_fetch_wf he)
  · exact exec_keeps_inv hi hrun (fetchWord_ok_bound hf) hx

/-! ### Reset, construction and the host operations -/

/-- Right after reset `I` and every stack slot are 0, `pc` is 0x200, no byte is listed and no fault is recorded. -/
theorem inv_reset : State.reset.Inv where
  idx_le := by decide
  pc_le := by decide
  stack_le := by decide
  mem_wf := rfl
  halted_wf := by rintro r ⟨⟩

theorem inv_powerOn (cfg : Config) : (powerOn cfg).Inv :=
  inv_reset.congr rfl rfl rfl rfl rfl

/-- The invariant holds after `reset`, whatever the state was. -/
theorem inv_hardReset (s : State) : (hardReset s).Inv :=
  inv_reset.congr rfl rfl rfl rfl rfl

/-- Settles O19: the bounds hold of the values of the reset table. -/
theorem constructedMachineMeetsTheInvariant : Obligations.ConstructedMachineMeetsTheInvariant :=
  ⟨inv_reset, inv_powerOn⟩

/-- The next state that `stepFull` answers is the one `step` answers (R57). -/
theorem step_eq_of_stepFull {s t : State} {res : StepResult} (h : stepFull s = .next (t, res)) :
    step s = .next t := by
  cases hh : s.halted with
  | some r =>
    rw [stepFull_of_halted hh] at h
    cases h
    exact step_of_halted hh
  | none =>
    cases hf : fetchWord s.mem s.pc with
    | error e =>
      rw [stepFull_of_fetch_error hh hf] at h
      cases h
      exact step_of_fetch_error hh hf
    | ok op =>
      rw [step_of_fetch_ok hh hf]
      cases hx : exec (decode s.cfg.extCls op) s with
      | next u =>
        rw [stepFull_of_exec hh hf hx] at h
        cases h
        rfl
      | fault f => simp [stepFull, hh, hf, hx] at h
      | refused r => simp [stepFull, hh, hf, hx] at h

/-- The host's `step` leaves the state alone or takes it to the one `step` answers. -/
theorem callHost_step_cases (s : State) :
    (callHost .step s).1 = s ∨ step s = .next (callHost .step s).1 := by
  simp only [callHost]
  split
  · rename_i h
    exact .inr (step_eq_of_stepFull h)
  · exact .inl rfl
  · exact .inl rfl

/-- Every host operation keeps the invariant (R122). -/
theorem callHost_keeps_inv (c : HostCall) {s : State} (hi : s.Inv) : (callHost c s).1.Inv := by
  cases c with
  | step =>
    rcases callHost_step_cases s with h | h
    · exact h.symm ▸ hi
    · exact stepKeepsTheInvariant s _ hi h
  | tickTimers => exact hi.congr rfl rfl rfl hi.mem_wf rfl
  | setKey k pressed =>
    obtain ⟨key, h⟩ := setKey_key_only k pressed s
    rw [callHost, h]
    exact hi.congr rfl rfl rfl hi.mem_wf rfl
  | getPixel x y => exact hi
  | buzzer => exact hi
  | load image =>
    obtain ⟨m, h, hm⟩ := load_mem_only image s
    rw [callHost, h]
    exact hi.setMem (hm hi.mem_wf)
  | reset => exact inv_hardReset s
  | installFont =>
    obtain ⟨m, h, hm⟩ := installFont_mem_only s
    rw [callHost, h]
    exact hi.setMem (hm hi.mem_wf)

/-- A run of host operations keeps the invariant. -/
theorem runHost_keeps_inv (cs : List HostCall) {s : State} (hi : s.Inv) : (runHost cs s).Inv := by
  induction cs generalizing s with
  | nil => exact hi
  | cons c cs ih => exact ih (callHost_keeps_inv c hi)

/-- Settles O21: the invariant holds at construction and every host operation keeps it. -/
theorem reachableStatesMeetTheInvariant : Obligations.ReachableStatesMeetTheInvariant := by
  refine ⟨fun c _ hi => callHost_keeps_inv c hi, ?_⟩
  rintro _ ⟨cfg, calls, rfl⟩
  exact runHost_keeps_inv calls (inv_powerOn cfg)

end Sys2Proof.Machine
end

section
/-! SUPPORT. Which general registers an instruction changes (R15, R16), and their values after reset (R32). -/

namespace Sys2Proof.Machine

/-- A write to one register changes no other. -/
theorem State.eq_of_setV_getV_ne {s : State} {x r : Reg} {b : Byte} (h : (s.setV x b).getV r ≠ s.getV r) :
    r = x := by
  by_contra hr
  exact h (by rw [State.setV_getV, if_neg hr])

/-- A result and its flag change no register but Vx and VF. -/
theorem State.eq_of_setVFlag_getV_ne {s : State} {x r : Reg} {b : Byte × Bool}
    (h : (s.setVFlag x b).getV r ≠ s.getV r) : r = x ∨ r = 15 := by
  by_contra hr
  obtain ⟨hx, hf⟩ := not_or.1 hr
  exact h (by rw [State.setVFlag_getV, if_neg hf, if_neg hx])

/-- A block that is read has the length asked for. -/
theorem readBlock_length {m : Memory} {a n : Nat} {bs : List Byte} (h : readBlock m a n = .ok bs) :
    bs.length = n := by
  rcases Nat.eq_zero_or_pos n with rfl | hn
  · cases h
    rfl
  · by_cases hfit : a + n ≤ memSize
    · rw [readBlock_ok hfit] at h
      cases h
      rw [List.length_map, List.length_range]
    · rw [readBlock_error hn (by omega)] at h
      cases h

/-- A block loaded from V0 up changes only the registers it covers. -/
theorem lt_length_of_loadBlock_ne {v : Vector Byte 16} {bs : List Byte} {r : Reg}
    (h : (loadBlock v 0 bs)[r] ≠ v[r]) : r.val < bs.length := by
  by_contra hr
  exact h (by rw [loadBlock_getElem, dif_neg (by omega)])

/-- The end of an instruction changes a register only if the instruction's own writes do: a fault changes none. -/
theorem commit_map_getV_ne {α : Type} {i : Instr} {s t : State} {r : Except Trap α} {f : α → State} {q : Reg}
    (h : commit i s (r.map f) = .next t) (hne : t.getV q ≠ s.getV q) :
    ∃ a, r = .ok a ∧ (f a).getV q ≠ s.getV q := by
  rcases commit_cases h with h | ⟨e, _, rfl⟩
  · obtain ⟨a, ha, rfl⟩ := map_eq_ok h
    exact ⟨a, ha, hne⟩
  · exact absurd rfl hne

/-- Settles O14, instruction by instruction. -/
theorem registersChangeOnlyAsNamed : Obligations.RegistersChangeOnlyAsNamed := by
  intro i s t r h hne
  cases i
  case ldByte | addByte | ldReg | orReg | andReg | xorReg | rndByte | ldVxDt =>
    cases h
    exact State.eq_of_setV_getV_ne hne
  case addReg | subReg | shrReg | subnReg | shlReg =>
    cases h
    exact State.eq_of_setVFlag_getV_ne hne
  case ldVxK x =>
    cases h
    split at hne
    · exact State.eq_of_setV_getV_ne hne
    · exact absurd rfl hne
  case drw =>
    obtain ⟨rows, _, hne⟩ := commit_map_getV_ne h hne
    exact State.eq_of_setV_getV_ne hne
  case loadRegs x =>
    obtain ⟨bs, hbs, hne⟩ := commit_map_getV_ne h hne
    have hr : r.val < x.val + 1 := readBlock_length hbs ▸ lt_length_of_loadBlock_ne hne
    exact Nat.le_of_lt_succ hr
  case ldBVx | storeRegs =>
    obtain ⟨m, _, hne⟩ := commit_map_getV_ne h hne
    exact absurd rfl hne
  case callAddr =>
    obtain ⟨u, hu, hne⟩ := commit_map_getV_ne h hne
    obtain ⟨_, rfl⟩ := push_eq_ok hu
    exact absurd rfl hne
  case ret =>
    rcases commit_cases h with h | ⟨e, _, rfl⟩
    · obtain ⟨_, rfl⟩ := popPc_eq_ok h
      exact absurd rfl hne
    · exact absurd rfl hne
  case cls =>
    cases h
    split at hne <;> exact absurd rfl hne
  all_goals
    cases h
    exact absurd rfl hne

/-- Settles O17, a conjunct for each row of the reset table and one for the buzzer. -/
theorem resetStateHasTheTableValues : Obligations.ResetStateHasTheTableValues := by
  refine ⟨hardReset_getV State.reset, rfl, rfl, rfl, ?stack, rfl, rfl, ?mem, ?key, Framebuffer.clear_get, rfl, rfl⟩
  case stack =>
    intro k
    exact Vector.getElem_replicate k.isLt
  case mem =>
    intro a
    rfl
  case key =>
    intro k
    exact Vector.getElem_replicate k.isLt

end Sys2Proof.Machine
end

section
/-! SUPPORT. Memory (20_memory.md): a read gives the last write, and a stored instruction runs at the next step. For
the latter, what FX55 decodes from and what it does with its block inside memory. -/

namespace Sys2Proof.Machine

/-! ### The last write (R35, R40, R42) -/

/-- A read of any kind after a write to a memory in canonical form: the byte written, or what was there. -/
theorem memRead_poke {m : Memory} (hm : m.wf = true) (kind : AccessKind) (a : Nat) (b : Byte) {c : Nat}
    (hc : c < memSize) : memRead kind (m.poke a b) c = if c = a then .ok b else memRead kind m c := by
  rw [memRead_ok hc, memRead_ok hc, Memory.peek_poke hm]
  split <;> rfl

/-- Settles O44: the write is a `poke`, which keeps the canonical form. -/
theorem readGivesLastWrite : Obligations.ReadGivesLastWrite := by
  intro m a b hm ha
  exact ⟨m.poke a b, memWrite_ok ha, Memory.poke_wf hm b ha, fun kind _ hc => memRead_poke hm kind a b hc⟩

/-! ### The decoding of FX55 (R53) -/

/-- A word under mask 0xF0FF determines its family and its low byte. -/
theorem family_fieldNN_of_and_F0FF {op v : Word} (h : op &&& 0xF0FF = v) :
    (family op).val = v.toNat / 4096 ∧ (fieldNN op).toNat = v.toNat % 4096 := by
  have hsum := and_F0FF op
  rw [h] at hsum
  have hnn := (fieldNN op).isLt
  omega

/-- The row FX55 of R53. -/
theorem rowDecodes_storeRegs : RowDecodes 0xF0FF 0xF055 (fun op => .storeRegs (fieldX op)) := by
  intro ext op h
  obtain ⟨hfamily, hnn⟩ := family_fieldNN_of_and_F0FF h
  simp [decode, decodeFamilyF, hfamily, hnn]

theorem fieldX_packByte (f x : Fin 16) (nn : Byte) : fieldX (packByte f x nn) = x := by
  have hnn := nn.isLt
  ext
  rw [fieldX_val, packByte_toNat]
  omega

theorem decode_encode_storeRegs (ext : Bool) (x : Reg) : decode ext (encode (.storeRegs x)) = .storeRegs x :=
  calc decode ext (encode (.storeRegs x))
    _ = .storeRegs (fieldX (encode (.storeRegs x))) :=
      rowDecodes_storeRegs ext _ (Laws.EncodeMatchesRow.storeRegs x)
    _ = .storeRegs x := congrArg Instr.storeRegs (fieldX_packByte _ x _)

/-! ### FX55 with its block inside memory (R94) -/

/-- FX55 that faults nowhere only puts V0 to Vx at `I` and goes on to the next instruction. -/
theorem exec_storeRegs_ok {x : Reg} {s : State} (hm : s.mem.wf = true) (h : s.idx.toNat + x.val < memSize) :
    ∃ m, exec (.storeRegs x) s = .next ({ s with mem := m } : State).advance ∧ m.wf = true ∧
      (∀ k : Reg, k ≤ x → m.peek (s.idx.toNat + k.val) = s.getV k) ∧
      ∀ a, (a < s.idx.toNat ∨ s.idx.toNat + x.val < a) → m.peek a = s.mem.peek a := by
  have hlen := regBlock_length s x
  obtain ⟨m, hwrite, hwf, hpeek⟩ :=
    writeBlock_ok hm (a := s.idx.toNat) (bs := regBlock s x) (by omega)
  refine ⟨m, ?next, hwf, fun k hk => ?stored, fun a ha => ?frame⟩
  case next =>
    simp only [exec, execStoreRegs, hwrite, Except.map, commit_ok]
  case stored =>
    have hkx : k.val ≤ x.val := hk
    rw [hpeek, dif_pos (by omega), regBlock_getElem]
    simp only [Nat.add_sub_cancel_left]
  case frame =>
    rw [hpeek, dif_neg (by omega)]

/-! ### A store is seen by the next fetch (R46, R140) -/

/-- Settles O16: the step runs FX55, whose first two bytes land at the next `pc`; the next fetch reads them there. -/
theorem storedInstructionRunsNext : Obligations.StoredInstructionRunsNext := by
  intro s x hrun hm hpc hidx hx hblock hword
  obtain ⟨m, hexec, -, hstored, -⟩ := exec_storeRegs_ok hm hblock
  have hfetch : fetchWord s.mem s.pc = .ok (encode (.storeRegs x)) := hword ▸ fetchWord_ok hpc
  have hV0 : m.peek s.idx.toNat = s.getV 0 := hstored 0 (Nat.zero_le _)
  have hV1 : m.peek (s.idx.toNat + 1) = s.getV 1 := hstored 1 hx
  have hnext : fetchWord m (s.pc + 2) = .ok (s.getV 0 ++ s.getV 1) := by
    rw [← hidx, fetchWord_ok (by simp only [memSize]; omega), hV0, hV1]
  refine ⟨({ s with mem := m } : State).advance, ?_, step_of_fetch_ok hrun hnext⟩
  rw [step_of_fetch_ok hrun hfetch, decode_encode_storeRegs, hexec]

end Sys2Proof.Machine
end

section
/-! SUPPORT. Encoding (30_encoding.md): the fields of packed words, the words that each row of the opcode table hits,
and what decoder and encoder make of them; then the two round trips, the table and the unsupported words. -/

namespace Sys2Proof.Machine

/-! ### Fields of packed words (R50) -/

theorem family_packAddr (f : Fin 16) (nnn : Addr12) : family (packAddr f nnn) = f := by
  ext
  rw [family_val, packAddr_toNat]
  omega

theorem fieldNNN_packAddr (f : Fin 16) (nnn : Addr12) : fieldNNN (packAddr f nnn) = nnn := by
  apply BitVec.eq_of_toNat_eq
  rw [fieldNNN_toNat, packAddr_toNat]
  omega

theorem family_packByte (f x : Fin 16) (nn : Byte) : family (packByte f x nn) = f := by
  ext
  rw [family_val, packByte_toNat]
  omega

theorem fieldNN_packByte (f x : Fin 16) (nn : Byte) : fieldNN (packByte f x nn) = nn := by
  apply BitVec.eq_of_toNat_eq
  rw [fieldNN_toNat, packByte_toNat]
  omega

theorem family_packNibbles (f x y n : Fin 16) : family (packNibbles f x y n) = f := by
  ext
  rw [family_val, packNibbles_toNat]
  omega

theorem fieldX_packNibbles (f x y n : Fin 16) : fieldX (packNibbles f x y n) = x := by
  ext
  rw [fieldX_val, packNibbles_toNat]
  omega

theorem fieldY_packNibbles (f x y n : Fin 16) : fieldY (packNibbles f x y n) = y := by
  ext
  rw [fieldY_val, packNibbles_toNat]
  omega

theorem fieldN_packNibbles (f x y n : Fin 16) : fieldN (packNibbles f x y n) = n := by
  ext
  rw [fieldN_val, packNibbles_toNat]
  omega

/-! ### The words a row of the table hits (R53)

A mask keeps the family and, at most, the low nibble or the low byte: a row asks for these to be its value's. -/

theorem hits_iff {r : OpRow} {op : Word} : r.hits op = true ↔ op &&& r.mask = r.value := beq_iff_eq

theorem hits_FFFF_iff {op v : Word} {b : Word → Instr} : (OpRow.mk 0xFFFF v b).hits op = true ↔ op = v := by
  rw [hits_FFFF, decide_eq_true_eq, BitVec.toNat_inj]

theorem hits_F000_iff {op v : Word} {b : Word → Instr} : (OpRow.mk 0xF000 v b).hits op = true ↔
    op.toNat / 4096 = v.toNat / 4096 ∧ 0 = v.toNat % 4096 := by
  rw [hits_F000, decide_eq_true_eq]
  omega

theorem hits_F00F_iff {op v : Word} {b : Word → Instr} : (OpRow.mk 0xF00F v b).hits op = true ↔
    op.toNat / 4096 = v.toNat / 4096 ∧ op.toNat % 16 = v.toNat % 4096 := by
  rw [hits_F00F, decide_eq_true_eq]
  omega

theorem hits_F0FF_iff {op v : Word} {b : Word → Instr} : (OpRow.mk 0xF0FF v b).hits op = true ↔
    op.toNat / 4096 = v.toNat / 4096 ∧ op.toNat % 256 = v.toNat % 4096 := by
  rw [hits_F0FF, decide_eq_true_eq]
  omega

/-- Two rows that hit one word agree on the bits that both masks keep. -/
theorem value_and_mask_eq_of_hits {r q : OpRow} {op : Word} (hr : r.hits op = true) (hq : q.hits op = true) :
    r.value &&& q.mask = q.value &&& r.mask := by
  rw [← hits_iff.1 hr, ← hits_iff.1 hq, BitVec.and_assoc, BitVec.and_assoc, BitVec.and_comm r.mask]

/-! ### The rows, one by one (R53) -/

/-- The rows of R53 that both configurations have. -/
def fixedRows : List OpRow := controlRows ++ registerRows ++ memoryAndDeviceRows

/-- The table is the row 00E0, under `EXT_CLS` only, and the rows of both configurations (R53, R100). -/
theorem forall_mem_opcodeRows {ext : Bool} {p : OpRow → Prop} : (∀ r ∈ opcodeRows ext, p r) ↔
    (ext = true → p ⟨0xFFFF, 0x00E0, fun _ => .cls⟩) ∧ ∀ r ∈ fixedRows, p r := by
  have happend : opcodeRows ext = clsRows ext ++ fixedRows := by simp [opcodeRows, fixedRows]
  rw [happend, List.forall_mem_append]
  cases ext <;> simp [clsRows]

/-- Any two rows differ on a bit that both masks keep. -/
theorem opcodeRows_values_differ (ext : Bool) :
    (opcodeRows ext).Pairwise fun r q => r.value &&& q.mask ≠ q.value &&& r.mask := by
  cases ext <;> decide

/-- Every row of both configurations decodes: the family, and the low nibble or byte where the row asks for it, lead
the decoder to the row's own arm. -/
theorem rowDecodes_of_mem : ∀ r ∈ fixedRows, RowDecodes r.mask r.value r.build := by
  simp only [RowDecodes, ← hits_iff, fixedRows, controlRows, registerRows, memoryAndDeviceRows,
    List.forall_mem_append, List.forall_mem_cons, List.not_mem_nil, false_implies, implies_true, and_true,
    hits_FFFF_iff, hits_F000_iff, hits_F00F_iff, hits_F0FF_iff]
  and_intros
  · rintro ext _ rfl
    rfl
  all_goals
    intro ext op h
    simp only [BitVec.ofNat_eq_ofNat, BitVec.toNat_ofNat, Nat.reducePow, Nat.reduceMod, Nat.reduceDiv] at h
    simp [decode, decodeFamily5, decodeFamily8, decodeFamily9, decodeFamilyE, decodeFamilyF,
      family_val, fieldN_val, fieldNN_toNat, Fin.ext_iff, h]

/-- A word that a row of the table hits decodes to what the row builds. -/
theorem decode_eq_build (ext : Bool) :
    ∀ r ∈ opcodeRows ext, ∀ op, r.hits op = true → decode ext op = r.build op := by
  rw [forall_mem_opcodeRows]
  refine ⟨?cls, fun r hr op h => rowDecodes_of_mem r hr ext op (hits_iff.1 h)⟩
  rintro rfl op h
  rw [hits_FFFF_iff.1 h]
  rfl

/-- What a row builds from a word it hits encodes to that word: the row's value and the fields it reads cover every
bit. -/
theorem encode_build (ext : Bool) :
    ∀ r ∈ opcodeRows ext, ∀ op, r.hits op = true → encode (r.build op) = op := by
  simp only [forall_mem_opcodeRows, fixedRows, controlRows, registerRows, memoryAndDeviceRows,
    List.forall_mem_append, List.forall_mem_cons, List.not_mem_nil, false_implies, implies_true, and_true,
    hits_FFFF_iff, hits_F000_iff, hits_F00F_iff, hits_F0FF_iff]
  and_intros
  · rintro _ _ rfl
    rfl
  · rintro _ rfl
    rfl
  all_goals
    intro op h
    apply BitVec.eq_of_toNat_eq
    simp [encode, packAddr_toNat, packByte_toNat, packNibbles_toNat, fieldX_val, fieldY_val, fieldN_val,
      fieldNN_toNat, fieldNNN_toNat] at h ⊢
    omega

theorem build_wf (ext : Bool) (op : Word) : ∀ r ∈ opcodeRows ext, (r.build op).wf ext = true := by
  rw [forall_mem_opcodeRows]
  exact ⟨id, by simp [fixedRows, controlRows, registerRows, memoryAndDeviceRows, Instr.wf]⟩

/-! ### The unsupported words (R54, R55) -/

theorem decodeFamily0_eq_unsupported_iff {ext : Bool} {op : Word} :
    decodeFamily0 ext op = .unsupported op ↔ op ≠ 0x00EE ∧ ¬(ext = true ∧ op = 0x00E0) := by
  rw [decodeFamily0]
  split_ifs with hret hcls
  · simp [hret]
  · simp [hcls]
  · simp only [hret, hcls, ne_eq, not_false_eq_true, and_self]

theorem decodeFamily5_eq_unsupported_iff {op : Word} :
    decodeFamily5 op = .unsupported op ↔ op.toNat % 16 ≠ 0 := by
  simp [decodeFamily5, Fin.ext_iff, fieldN_val]

theorem decodeFamily8_eq_unsupported_iff {op : Word} :
    decodeFamily8 op = .unsupported op ↔ op.toNat % 16 ∈ [0x8, 0x9, 0xA, 0xB, 0xC, 0xD, 0xF] := by
  have hlt := (fieldN op).isLt
  rw [← fieldN_val, decodeFamily8]
  interval_cases (fieldN op).val <;> simp

theorem decodeFamily9_eq_unsupported_iff {op : Word} :
    decodeFamily9 op = .unsupported op ↔ op.toNat % 16 ≠ 0 := by
  simp [decodeFamily9, Fin.ext_iff, fieldN_val]

theorem decodeFamilyE_eq_unsupported_iff {op : Word} :
    decodeFamilyE op = .unsupported op ↔ op.toNat % 256 ∉ [0x9E, 0xA1] := by
  rw [← fieldNN_toNat, decodeFamilyE]
  split <;> simp_all

theorem decodeFamilyF_eq_unsupported_iff {op : Word} : decodeFamilyF op = .unsupported op ↔
    op.toNat % 256 ∉ [0x07, 0x0A, 0x15, 0x18, 0x1E, 0x29, 0x33, 0x55, 0x65] := by
  rw [← fieldNN_toNat, decodeFamilyF]
  split <;> simp_all

/-- Settles O5, family by family. -/
theorem unsupportedWordsAreTheListedOnes : Obligations.UnsupportedWordsAreTheListedOnes := by
  intro ext op
  have hlt := (family op).isLt
  rw [← family_val, decode]
  interval_cases (family op).val
  all_goals
    simp [decodeFamily0_eq_unsupported_iff, decodeFamily5_eq_unsupported_iff, decodeFamily8_eq_unsupported_iff,
      decodeFamily9_eq_unsupported_iff, decodeFamilyE_eq_unsupported_iff, decodeFamilyF_eq_unsupported_iff]

/-- A word that no row hits is one of the listed words: in each family the rows leave just those. -/
theorem decode_of_not_matchesRow {ext : Bool} {op : Word} (h : matchesRow ext op = false) :
    decode ext op = .unsupported op := by
  have hlt : op.toNat / 4096 < 16 := family_val op ▸ (family op).isLt
  rw [unsupportedWordsAreTheListedOnes ext op]
  simp only [matchesRow, List.any_eq_false, forall_mem_opcodeRows, fixedRows, controlRows, registerRows,
    memoryAndDeviceRows, List.forall_mem_append, List.forall_mem_cons, List.not_mem_nil, false_implies, implies_true,
    and_true, hits_FFFF_iff, hits_F000_iff, hits_F00F_iff, hits_F0FF_iff] at h
  interval_cases hfamily : op.toNat / 4096 <;> simp at h ⊢
  · exact ⟨h.2, h.1⟩
  all_goals omega

/-! ### The obligations -/

/-- What the decoder can do: read a row that hits the word, or find none. -/
theorem decode_cases (ext : Bool) (op : Word) :
    (∃ r ∈ opcodeRows ext, r.hits op = true ∧ decode ext op = r.build op) ∨
    (matchesRow ext op = false ∧ decode ext op = .unsupported op) := by
  cases h : matchesRow ext op with
  | true =>
    obtain ⟨r, hr, hhits⟩ := List.any_eq_true.1 h
    exact .inl ⟨r, hr, hhits, decode_eq_build ext r hr op hhits⟩
  | false => exact .inr ⟨rfl, decode_of_not_matchesRow h⟩

/-- Settles O2, by the form of the instruction's word: the decoder reads back the fields the encoder packed. -/
theorem decodeOfEncodeIsIdentity : Obligations.DecodeOfEncodeIsIdentity := by
  intro ext i h
  cases i with
  | unsupported op => exact decode_of_not_matchesRow (Laws.EncodeMatchesRow.unsupported op ext h)
  | cls =>
    obtain rfl : ext = true := h
    rfl
  | ret => rfl
  | jpAddr | callAddr | ldIAddr | jpV0 => simp [encode, decode, family_packAddr, fieldNNN_packAddr]
  | seByte | sneByte | ldByte | addByte | rndByte =>
    simp [encode, decode, family_packByte, fieldX_packByte, fieldNN_packByte]
  | skp | sknp =>
    simp [encode, decode, decodeFamilyE, family_packByte, fieldX_packByte, fieldNN_packByte]
  | ldVxDt | ldVxK | ldDtVx | ldStVx | addIVx | ldFVx | ldBVx | storeRegs | loadRegs =>
    simp [encode, decode, decodeFamilyF, family_packByte, fieldX_packByte, fieldNN_packByte]
  | seReg | sneReg | drw =>
    simp [encode, decode, decodeFamily5, decodeFamily9, family_packNibbles, fieldX_packNibbles, fieldY_packNibbles,
      fieldN_packNibbles]
  | ldReg | orReg | andReg | xorReg | addReg | subReg | shrReg | subnReg | shlReg =>
    simp [encode, decode, decodeFamily8, family_packNibbles, fieldX_packNibbles, fieldY_packNibbles,
      fieldN_packNibbles]

/-- Settles O3: a row builds a well-formed instruction that encodes to the word, and the catch-all keeps the word. -/
theorem encodeOfDecodeIsIdentity : Obligations.EncodeOfDecodeIsIdentity := by
  intro ext op
  rcases decode_cases ext op with ⟨r, hr, hhits, hdecode⟩ | ⟨hrow, hdecode⟩
  · rw [hdecode]
    exact ⟨build_wf ext op r hr, encode_build ext r hr op hhits⟩
  · rw [hdecode]
    exact ⟨congrArg not hrow, rfl⟩

/-- Settles O4: every row that hits decodes, and rows that differ on a bit both masks keep hit no word together. -/
theorem decodeFollowsOpcodeTable : Obligations.DecodeFollowsOpcodeTable := by
  intro ext op
  refine ⟨?reads, (opcodeRows_values_differ ext).imp ?disjoint⟩
  case reads =>
    cases h : (opcodeRows ext).find? (·.hits op) with
    | some r =>
      have hhits : r.hits op = true := List.find?_some (p := fun q : OpRow => q.hits op) h
      exact decode_eq_build ext r (List.mem_of_find?_eq_some h) op hhits
    | none => exact decode_of_not_matchesRow (List.any_eq_false.2 (List.find?_eq_none.1 h))
  case disjoint =>
    rintro r q hne ⟨hr, hq⟩
    exact hne (value_and_mask_eq_of_hits hr hq)

/-- `EXT_CLS` matters to family 0 at 00E0 alone. -/
theorem decodeFamily0_extCls {op : Word} (h : op ≠ 0x00E0) : decodeFamily0 true op = decodeFamily0 false op := by
  simp only [decodeFamily0, h, and_false]

/-- Settles O6: only family 0 looks at the configuration. -/
theorem extClsDecidesOnlyClearScreen : Obligations.ExtClsDecidesOnlyClearScreen := by
  refine ⟨rfl, rfl, fun op h => ?_⟩
  simp only [decode, decodeFamily0_extCls h]

/-- Settles O1, by running the decoder on the words. -/
theorem specWordsDecodeAsWritten : Obligations.SpecWordsDecodeAsWritten := by
  unfold Obligations.SpecWordsDecodeAsWritten
  decide

end Sys2Proof.Machine
end

section
/-! SUPPORT. The step cycle (40_step.md): what an instruction leaves alone, where it leaves `pc`, and what it reports;
then the statements about a step. -/

namespace Sys2Proof.Machine

/-! ### What an instruction can do -/

/-- The end of an instruction that may fault: its writes, or the fault taken (R64). -/
theorem commit_map_cases {α : Type} {i : Instr} {s t : State} {r : Except Trap α} {f : α → State}
    (h : commit i s (r.map f) = .next t) :
    (∃ a, r = .ok a ∧ t = f a) ∨ ∃ e, t = takeFault (some (encode i)) e s := by
  rcases commit_cases h with h | ⟨e, _, rfl⟩
  · obtain ⟨a, ha, rfl⟩ := map_eq_ok h
    exact .inl ⟨a, ha, rfl⟩
  · exact .inr ⟨e, rfl⟩

/-- Every instruction answers a next state, from every state (R68). -/
theorem exec_next (i : Instr) (s : State) : ∃ t, exec i s = .next t := by
  cases i
  case callAddr | ret | drw | ldBVx | storeRegs | loadRegs => exact commit_next _ s _
  all_goals exact ⟨_, rfl⟩

/-- Every step answers a next state, from every state (R68). -/
theorem step_next (s : State) : ∃ t, step s = .next t := by
  cases hh : s.halted with
  | some r => exact ⟨s, step_of_halted hh⟩
  | none =>
    cases hf : fetchWord s.mem s.pc with
    | error e => exact ⟨_, step_of_fetch_error hh hf⟩
    | ok op =>
      rw [step_of_fetch_ok hh hf]
      exact exec_next _ s

/-- FX0A with no key pressed leaves the state as it is (R104). -/
theorem exec_ldVxK_waits {s : State} (x : Reg) (h : firstPressed s.key = none) :
    exec (.ldVxK x) s = .next s := by
  simp only [exec, execLdVxK, h]

/-- FX0A with a key pressed takes the lowest one (R104). -/
theorem exec_ldVxK_takes {s : State} (x : Reg) {k : Key} (h : firstPressed s.key = some k) :
    exec (.ldVxK x) s = .next (s.setV x (keyByte k)).advance := by
  simp only [exec, execLdVxK, h]

/-- An instruction changes no key, DT only as FX15, ST only as FX18, and the count of random bytes only as CXNN. -/
theorem exec_devices_frame {i : Instr} {s t : State} (h : exec i s = .next t) :
    t.key = s.key ∧ (t.dt = s.dt ∨ ∃ x, i = .ldDtVx x) ∧ (t.st = s.st ∨ ∃ x, i = .ldStVx x) ∧
    (t.draws = s.draws ∨ ∃ x nn, i = .rndByte x nn) := by
  cases i
  case ldDtVx x =>
    cases h
    exact ⟨rfl, .inr ⟨x, rfl⟩, .inl rfl, .inl rfl⟩
  case ldStVx x =>
    cases h
    exact ⟨rfl, .inl rfl, .inr ⟨x, rfl⟩, .inl rfl⟩
  case rndByte x nn =>
    cases h
    exact ⟨rfl, .inl rfl, .inl rfl, .inr ⟨x, nn, rfl⟩⟩
  case callAddr =>
    rcases commit_map_cases h with ⟨u, hu, rfl⟩ | ⟨e, rfl⟩
    · obtain ⟨_, rfl⟩ := push_eq_ok hu
      exact ⟨rfl, .inl rfl, .inl rfl, .inl rfl⟩
    · exact ⟨rfl, .inl rfl, .inl rfl, .inl rfl⟩
  case ret =>
    rcases commit_cases h with h | ⟨e, _, rfl⟩
    · obtain ⟨_, rfl⟩ := popPc_eq_ok h
      exact ⟨rfl, .inl rfl, .inl rfl, .inl rfl⟩
    · exact ⟨rfl, .inl rfl, .inl rfl, .inl rfl⟩
  case drw | ldBVx | storeRegs | loadRegs =>
    rcases commit_map_cases h with ⟨a, _, rfl⟩ | ⟨e, rfl⟩ <;> exact ⟨rfl, .inl rfl, .inl rfl, .inl rfl⟩
  case cls | ldVxK =>
    cases h
    split <;> exact ⟨rfl, .inl rfl, .inl rfl, .inl rfl⟩
  all_goals
    cases h
    exact ⟨rfl, .inl rfl, .inl rfl, .inl rfl⟩

/-! ### The fetched word and its instruction (R53, R60) -/

/-- A word decodes to a well-formed instruction exactly when it is that instruction's word. -/
theorem decode_eq_iff {ext : Bool} {op : Word} {i : Instr} (hi : i.wf ext = true) :
    decode ext op = i ↔ op = encode i := by
  constructor
  · rintro rfl
    exact (encodeOfDecodeIsIdentity ext op).2.symm
  · rintro rfl
    exact decodeOfEncodeIsIdentity ext i hi

/-- A word decodes to the unsupported instruction of no word but itself (R108). -/
theorem decode_eq_unsupported_iff {ext : Bool} {op w : Word} :
    decode ext op = .unsupported w ↔ op = w ∧ decode ext w = .unsupported w := by
  constructor
  · intro h
    have hop : encode (decode ext op) = op := (encodeOfDecodeIsIdentity ext op).2
    rw [h] at hop
    cases hop
    exact ⟨rfl, h⟩
  · rintro ⟨rfl, h⟩
    exact h

/-- Settles O7: the fetch inside memory is the two bytes, and the word of an instruction decodes to it. -/
theorem stepRunsDecodedInstruction : Obligations.StepRunsDecodedInstruction := by
  intro s hrun hpc
  have hstep := step_of_fetch_ok hrun (fetchWord_ok hpc)
  refine ⟨hstep, fun i hi hword => ?_⟩
  rw [hstep, (decode_eq_iff hi).2 hword]

/-- Settles O8: the fetch by where `pc` lies, and a step takes the fault that the fetch raises. -/
theorem fetchIsTwoBytesBigEndianChecked : Obligations.FetchIsTwoBytesBigEndianChecked := by
  have hnext {m : Memory} {pc : Word} (h : pc.toNat = 0xFFF) :
      fetchWord m pc = .error { fault := .memoryOutOfBounds .fetch, addr := some 0x1000 } := by
    rw [fetchWord_error_next (h ▸ by decide) (h ▸ by decide), h]
    rfl
  have hpast {m : Memory} {pc : Word} (h : 4096 ≤ pc.toNat) :
      fetchWord m pc = .error { fault := .memoryOutOfBounds .fetch, addr := some pc } := by
    rw [fetchWord_error_pc h, outOfBounds, BitVec.ofNat_toNat, BitVec.setWidth_eq]
  constructor
  · refine fun m pc => ⟨fun h => ⟨_, fetchWord_ok h, ?_⟩, hnext, hpast⟩
    rw [BitVec.toNat_append, ← Nat.shiftLeft_add_eq_or_of_lt (BitVec.isLt _), Nat.shiftLeft_eq]
  · refine fun s hrun => ⟨fun h => ?_, fun h => ?_⟩
    · exact ⟨_, _, step_of_fetch_error hrun (hnext h), rfl, rfl, rfl⟩
    · exact ⟨_, _, step_of_fetch_error hrun (hpast h), rfl, rfl, rfl⟩

/-- Settles O9. -/
theorem haltedStepChangesNothing : Obligations.HaltedStepChangesNothing :=
  fun _ _ h => ⟨step_of_halted h, stepFull_of_halted h⟩

/-- Settles O10: every step answers, and the FX0A that waits answers the state it began in. -/
theorem stepAlwaysReturns : Obligations.StepAlwaysReturns := by
  refine ⟨step_next, fun s x hrun hfetch hkeys => ⟨s, ?_, rfl⟩⟩
  rw [step_of_fetch_ok hrun hfetch, (decode_eq_iff rfl).2 rfl, exec_ldVxK_waits x (firstPressed_none.2 hkeys)]

/-! ### Timers and keys (R66) -/

/-- A step changes no key, DT only as FX15 and ST only as FX18. -/
theorem step_devices_frame {s t : State} (h : step s = .next t) :
    t.key = s.key ∧
    (t.dt = s.dt ∨ ∃ op x, fetchWord s.mem s.pc = .ok op ∧ decode s.cfg.extCls op = .ldDtVx x) ∧
    (t.st = s.st ∨ ∃ op x, fetchWord s.mem s.pc = .ok op ∧ decode s.cfg.extCls op = .ldStVx x) := by
  rcases step_cases h with ⟨_, _, rfl⟩ | ⟨_, e, _, rfl⟩ | ⟨_, op, hop, hexec⟩
  · exact ⟨rfl, .inl rfl, .inl rfl⟩
  · exact ⟨rfl, .inl rfl, .inl rfl⟩
  · obtain ⟨hkey, hdt, hst, -⟩ := exec_devices_frame hexec
    exact ⟨hkey, hdt.imp_right fun ⟨x, hx⟩ => ⟨op, x, hop, hx⟩, hst.imp_right fun ⟨x, hx⟩ => ⟨op, x, hop, hx⟩⟩

/-- Of the host operations only `setKey` and `reset` change a key. -/
theorem callHost_key_frame (c : HostCall) (s : State) :
    (callHost c s).1.key = s.key ∨ c = .reset ∨ ∃ k pressed, c = .setKey k pressed := by
  cases c with
  | setKey k pressed => exact .inr (.inr ⟨k, pressed, rfl⟩)
  | reset => exact .inr (.inl rfl)
  | step =>
    rcases callHost_step_cases s with h | h
    · exact .inl (congrArg State.key h)
    · exact .inl (step_devices_frame h).1
  | load image =>
    obtain ⟨m, h, -⟩ := load_mem_only image s
    exact .inl (congrArg State.key h :)
  | installFont =>
    obtain ⟨m, h, -⟩ := installFont_mem_only s
    exact .inl (congrArg State.key h :)
  | tickTimers | getPixel | buzzer => exact .inl rfl

/-- Settles O11, from the frames of a step and of a host operation. -/
theorem stepChangesTimersOnlyByTheirLoads : Obligations.StepChangesTimersOnlyByTheirLoads := by
  refine ⟨fun s t h => ?step, fun c s hne => (callHost_key_frame c s).resolve_left hne⟩
  obtain ⟨hkey, hdt, hst⟩ := step_devices_frame h
  exact ⟨hkey, hdt.resolve_left, hst.resolve_left⟩

/-! ### Faults (R64, R65) -/

/-- Settles O12: the fault is that of the fetch or of the instruction, whose word is the one fetched. -/
theorem faultIsPreciseAndCommitsNothing : Obligations.FaultIsPreciseAndCommitsNothing := by
  intro s t r hrun hstep hr
  rcases step_cases hstep with ⟨q, hq, -⟩ | ⟨-, e, hfetch, rfl⟩ | ⟨-, op, hfetch, hexec⟩
  · cases hrun.symm.trans hq
  · cases hr
    rw [hfetch]
    exact ⟨rfl, rfl, nofun, fun _ _ => rfl⟩
  · rcases exec_halted_or_fault hexec with hsame | ⟨e, rfl⟩
    · cases hrun.symm.trans (hsame.symm.trans hr)
    · cases hr
      rw [hfetch, takeFault, faultRecord, (encodeOfDecodeIsIdentity _ op).2]
      exact ⟨rfl, rfl, fun _ h => congrArg some (Except.ok.inj h), nofun⟩

/-! ### The next `pc` (R62) -/

/-- A fetched instruction is so far inside memory that a skip over the next one does not wrap (R63). -/
theorem State.skipIf_pc_toNat {s : State} (hpc : s.pc.toNat + 1 < memSize) (c : Bool) :
    (s.skipIf c).pc.toNat = s.pc.toNat + if c then 4 else 2 := by
  simp only [memSize] at hpc
  rw [State.skipIf_pc]
  split_ifs <;> bv_omega

theorem State.advance_pc_toNat {s : State} (hpc : s.pc.toNat + 1 < memSize) :
    s.advance.pc.toNat = s.pc.toNat + 2 :=
  State.skipIf_pc_toNat hpc false

/-- An instruction fetched inside memory sets the next `pc` as its row of R62 says, or takes a fault. -/
theorem exec_nextPc_or_fault {i : Instr} {s t : State} (hpc : s.pc.toNat + 1 < memSize) (h : exec i s = .next t) :
    NextPc i s t ∨ ∃ e, t = takeFault (some (encode i)) e s := by
  have hskip := State.skipIf_pc_toNat hpc
  have hadvance := State.advance_pc_toNat hpc
  cases i
  case jpAddr nnn =>
    cases h
    exact .inl (addrWord_toNat nnn)
  case jpV0 nnn =>
    cases h
    exact .inl (offsetTarget_toNat _ nnn)
  case callAddr nnn =>
    refine (commit_map_cases h).imp_left ?_
    rintro ⟨u, -, rfl⟩
    exact addrWord_toNat nnn
  case ret =>
    rcases commit_cases h with hpop | ⟨e, -, rfl⟩
    · obtain ⟨hsp, rfl⟩ := popPc_eq_ok hpop
      exact .inl ⟨⟨s.sp.val - 1, by omega⟩, Nat.sub_add_cancel hsp, rfl⟩
    · exact .inr ⟨e, rfl⟩
  case seByte | sneByte | seReg | sneReg | skp =>
    cases h
    refine .inl ((hskip _).trans ?_)
    simp
  case sknp x =>
    cases h
    refine .inl ((hskip _).trans ?_)
    cases s.keyDown (lowNibble (s.getV x)) <;> rfl
  case ldVxK x =>
    left
    cases hk : firstPressed s.key with
    | none =>
      rw [exec_ldVxK_waits x hk] at h
      cases h
      rw [NextPc, if_pos (firstPressed_none.1 hk), Nat.add_zero]
    | some k =>
      have hpressed : ¬∀ k : Key, s.key[k] = false := fun hall => by cases hk.symm.trans (firstPressed_none.2 hall)
      rw [exec_ldVxK_takes x hk] at h
      cases h
      rw [NextPc, if_neg hpressed]
      exact hadvance
  case drw | ldBVx | storeRegs | loadRegs =>
    refine (commit_map_cases h).imp_left ?_
    rintro ⟨a, -, rfl⟩
    exact hadvance
  case cls =>
    cases h
    left
    split <;> exact hadvance
  all_goals
    cases h
    exact .inl hadvance

/-- Settles O13: the fetched instruction follows its row, and one that takes a fault leaves `pc`. -/
theorem nextPcFollowsTheTable : Obligations.NextPcFollowsTheTable := by
  intro s t op hrun hfetch hstep
  rw [step_of_fetch_ok hrun hfetch] at hstep
  rcases exec_nextPc_or_fault (fetchWord_ok_bound hfetch) hstep with hnext | ⟨e, rfl⟩
  · refine ⟨fun _ => hnext, fun hhalted => ?_⟩
    rcases exec_halted_or_fault hstep with hsame | ⟨e, rfl⟩
    · exact absurd (hsame.trans hrun) hhalted
    · rfl
  · exact ⟨nofun, fun _ => rfl⟩

/-! ### The random byte (R67) -/

/-- The state with another count of random bytes drawn. -/
def State.withDraws (s : State) (d : Nat) : State := { s with draws := d }

/-- The return stack does not depend on the count of random bytes. -/
theorem push_withDraws (a : Word) (s : State) (d : Nat) :
    push a (s.withDraws d) = (push a s).map (State.withDraws · d) := by
  by_cases hs : s.sp.val < 16
  · rw [push_ok hs, push_ok (s := s.withDraws d) hs]
    rfl
  · have hfull : s.sp.val = 16 := by omega
    rw [push_error hfull, push_error (s := s.withDraws d) hfull]
    rfl

theorem popPc_withDraws (s : State) (d : Nat) : popPc (s.withDraws d) = (popPc s).map (State.withDraws · d) := by
  by_cases hs : 0 < s.sp.val
  · rw [popPc_ok hs, popPc_ok (s := s.withDraws d) hs]
    rfl
  · have hempty : s.sp.val = 0 := by omega
    rw [popPc_error hempty, popPc_error (s := s.withDraws d) hempty]
    rfl

/-- The end of an instruction does not look at the count of random bytes when the instruction's own writes do not. -/
theorem commit_withDraws {i : Instr} {s t : State} {r r' : Except Trap State} (d : Nat)
    (hr : r' = r.map (State.withDraws · d)) (h : commit i s r = .next t) :
    commit i (s.withDraws d) r' = .next (t.withDraws d) := by
  subst hr
  rcases commit_cases h with rfl | ⟨e, rfl, rfl⟩ <;> rfl

/-- `commit_withDraws` for an instruction whose reads and writes of memory do not depend on the count. -/
theorem commit_map_withDraws {α : Type} {i : Instr} {s t : State} {r : Except Trap α} {f g : α → State} (d : Nat)
    (h : commit i s (r.map f) = .next t) (hg : ∀ a, g a = (f a).withDraws d) :
    commit i (s.withDraws d) (r.map g) = .next (t.withDraws d) := by
  obtain rfl : g = fun a => (f a).withDraws d := funext hg
  refine commit_withDraws d ?_ h
  cases r <;> rfl

/-- An instruction other than CXNN goes the same way whatever the count of random bytes. -/
theorem exec_withDraws {i : Instr} {s t : State} (d : Nat) (hi : ∀ x nn, i ≠ .rndByte x nn)
    (h : exec i s = .next t) : exec i (s.withDraws d) = .next (t.withDraws d) := by
  cases i
  case rndByte x nn => exact absurd rfl (hi x nn)
  case callAddr nnn =>
    refine commit_withDraws d ?_ h
    refine (congrArg _ (push_withDraws (s.pc + 2) s d)).trans ?_
    cases push (s.pc + 2) s <;> rfl
  case ret => exact commit_withDraws d (popPc_withDraws s d) h
  case drw | ldBVx | storeRegs | loadRegs =>
    exact commit_map_withDraws (s := s) d h fun _ => rfl
  case cls =>
    cases h
    split
    next hc => exact congrArg Host.Outcome.next (if_pos hc)
    next hc => exact congrArg Host.Outcome.next (if_neg hc)
  case ldVxK x =>
    cases hk : firstPressed s.key with
    | none =>
      rw [exec_ldVxK_waits x hk] at h
      cases h
      exact exec_ldVxK_waits (s := s.withDraws d) x hk
    | some k =>
      rw [exec_ldVxK_takes x hk] at h
      cases h
      exact exec_ldVxK_takes (s := s.withDraws d) x hk
  all_goals
    cases h
    rfl

/-- Settles O15: neither a halt nor a fetch looks at the count, and of the instructions only CXNN does. -/
theorem onlyRndReadsTheRandomByte : Obligations.OnlyRndReadsTheRandomByte := by
  intro s t d hrnd hstep
  rcases step_cases hstep with ⟨r, hr, rfl⟩ | ⟨hrun, e, hfetch, rfl⟩ | ⟨hrun, op, hfetch, hexec⟩
  · exact ⟨rfl, step_of_halted hr⟩
  · exact ⟨rfl, step_of_fetch_error hrun hfetch⟩
  · have hi := fun x nn => hrnd op x nn hfetch
    obtain ⟨-, -, -, hdraws⟩ := exec_devices_frame hexec
    refine ⟨hdraws.resolve_right fun ⟨x, nn, hx⟩ => hi x nn hx, ?_⟩
    exact (step_of_fetch_ok (s := s.withDraws d) hrun hfetch).trans (exec_withDraws d hi hexec)

/-! ### The result of a step (R57) -/

theorem execResult_of_running {i : Instr} {s t : State} (h : t.halted = none) :
    execResult i s t = completedResult i s := by
  simp only [execResult, h]

theorem execResult_of_halted {i : Instr} {s t : State} {r : FaultRecord} (h : t.halted = some r) :
    execResult i s t = .fault r := by
  simp only [execResult, h]

/-- Everything an instruction that raised no fault can report: a well-formed one reports an unsupported word only as
the catch-all, since 00E0 is an instruction only under `EXT_CLS` (R53, R100). -/
theorem completedResult_cases {i : Instr} {s : State} (hi : i.wf s.cfg.extCls = true) :
    (∃ x, i = .ldVxK x ∧ firstPressed s.key = none ∧ completedResult i s = .waiting) ∨
    (∃ op, i = .unsupported op ∧ completedResult i s = .unsupported op) ∨
    ((firstPressed s.key = none → ∀ x, i ≠ .ldVxK x) ∧ (∀ op, i ≠ .unsupported op) ∧
      completedResult i s = .executed) := by
  cases i
  case ldVxK x =>
    cases hk : firstPressed s.key with
    | none => exact .inl ⟨x, rfl, rfl, by simp [completedResult, hk]⟩
    | some k => exact .inr (.inr ⟨nofun, nofun, by simp [completedResult, hk]⟩)
  case unsupported op => exact .inr (.inl ⟨op, rfl, rfl⟩)
  case cls => exact .inr (.inr ⟨fun _ => nofun, nofun, if_pos hi⟩)
  all_goals exact .inr (.inr ⟨fun _ => nofun, nofun, rfl⟩)

/-- Everything an instruction run by a running machine can report, and what that tells of it (R57). -/
theorem execResult_cases {i : Instr} {s t : State} (hi : i.wf s.cfg.extCls = true) (hrun : s.halted = none)
    (h : exec i s = .next t) :
    (∃ x, i = .ldVxK x ∧ firstPressed s.key = none ∧ t = s ∧ execResult i s t = .waiting) ∨
    (∃ op, i = .unsupported op ∧ t.halted = none ∧ execResult i s t = .unsupported op) ∨
    ((firstPressed s.key = none → ∀ x, i ≠ .ldVxK x) ∧ (∀ op, i ≠ .unsupported op) ∧
      ((t.halted = none ∧ execResult i s t = .executed) ∨
        ∃ r, t.halted = some r ∧ execResult i s t = .fault r)) := by
  rcases completedResult_cases hi with ⟨x, rfl, hk, hres⟩ | ⟨op, rfl, hres⟩ | ⟨hwait, hunsup, hres⟩
  · rw [exec_ldVxK_waits x hk] at h
    cases h
    exact .inl ⟨x, rfl, hk, rfl, (execResult_of_running hrun).trans hres⟩
  · cases h
    exact .inr (.inl ⟨op, rfl, hrun, (execResult_of_running hrun).trans hres⟩)
  · refine .inr (.inr ⟨hwait, hunsup, ?_⟩)
    cases ht : t.halted with
    | none => exact .inl ⟨rfl, (execResult_of_running ht).trans hres⟩
    | some r => exact .inr ⟨r, rfl, execResult_of_halted ht⟩

/-- Settles O53: the three ways a step can go, and for an instruction what it can report. -/
theorem stepResultMatchesTheStep : Obligations.StepResultMatchesTheStep := by
  intro s
  cases hh : s.halted with
  | some r =>
    refine ⟨s, .halted r, stepFull_of_halted hh, step_of_halted hh, ?_⟩
    simp [State.Running, hh]
  | none =>
    cases hf : fetchWord s.mem s.pc with
    | error e =>
      refine ⟨_, _, stepFull_of_fetch_error hh hf, step_of_fetch_error hh hf, ?_⟩
      simp [State.Running, hh]
    | ok op =>
      obtain ⟨hi, -⟩ := encodeOfDecodeIsIdentity s.cfg.extCls op
      obtain ⟨t, hexec⟩ := exec_next (decode s.cfg.extCls op) s
      refine ⟨t, _, stepFull_of_exec hh hf hexec, (step_of_fetch_ok hh hf).trans hexec, ?_⟩
      have hword (x : Reg) : op = encode (.ldVxK x) ↔ decode s.cfg.extCls op = .ldVxK x := (decode_eq_iff rfl).symm
      simp only [State.Running, hh, Except.ok.injEq, hword, ← decode_eq_unsupported_iff, ← firstPressed_none]
      rcases execResult_cases hi hh hexec with ⟨x, hx, hk, rfl, hres⟩ | ⟨w, hw, ht, hres⟩ |
          ⟨hwait, hunsup, ⟨ht, hres⟩ | ⟨r, ht, hres⟩⟩
      · rw [hres]
        simp [hx, hk, hh]
      · rw [hres]
        simp [hw, ht]
      · rw [hres]
        simpa [ht, hunsup] using hwait
      · rw [hres]
        simpa [ht, hunsup] using hwait

end Sys2Proof.Machine
end

section
/-! SUPPORT. Control flow (41_control_flow.md): what a jump, a skip, a call and a return do to the state and what they
leave; then the obligations of the family. -/

namespace Sys2Proof.Machine

/-! ### Decoding (R53) -/

/-- A row of the control-flow part of the table decodes. -/
theorem rowDecodes_of_mem_controlRows {mask value : Word} {build : Word → Instr}
    (h : OpRow.mk mask value build ∈ controlRows) : RowDecodes mask value build :=
  rowDecodes_of_mem _ (List.mem_append_left _ (List.mem_append_left _ h))

theorem and_000F_toNat (op : Word) : (op &&& 0x000F).toNat = op.toNat % 16 := by
  rw [BitVec.toNat_and]
  exact Nat.and_two_pow_sub_one_eq_mod op.toNat 4

/-- A word of the families 5 and 9 whose low nibble is not 0 is unsupported (R54). -/
theorem decode_eq_unsupported_of_family_5_9 {ext : Bool} {op : Word}
    (hfamily : op &&& 0xF000 = 0x5000 ∨ op &&& 0xF000 = 0x9000) (hlow : op &&& 0x000F ≠ 0) :
    decode ext op = .unsupported op := by
  have hnibble : op.toNat % 16 ≠ 0 := fun h => hlow (BitVec.eq_of_toNat_eq ((and_000F_toNat op).trans h))
  have htop : op.toNat / 4096 = 0x5 ∨ op.toNat / 4096 = 0x9 := by
    have hmask := and_F000 op
    rw [family_val] at hmask
    rcases hfamily with h | h <;> rw [h] at hmask
    · exact .inl (Nat.eq_of_mul_eq_mul_right (by decide) hmask.symm)
    · exact .inr (Nat.eq_of_mul_eq_mul_right (by decide) hmask.symm)
  exact (unsupportedWordsAreTheListedOnes ext op).2 (.inr (.inl ⟨htop, hnibble⟩))

/-! ### Jumps and skips (R62, R63) -/

/-- A jump writes `pc` and nothing else. -/
theorem State.jump_sameExcept (s : State) (target : Word) : SameExcept [.pc] s (s.jump target) := by
  constructor
  case pc => exact fun h => absurd List.mem_cons_self h
  all_goals intros; rfl

/-- A skip goes 4 on when its condition holds and 2 otherwise, and writes nothing but `pc`. The condition is told by
two propositions, one for each outcome. -/
theorem State.skipIf_spec (s : State) {c : Bool} {skips stays : Prop} (htrue : skips → c = true)
    (hfalse : stays → c = false) :
    (skips → (s.skipIf c).pc = s.pc + 4) ∧ (stays → (s.skipIf c).pc = s.pc + 2) ∧
      SameExcept [.pc] s (s.skipIf c) := by
  refine ⟨fun h => ?_, fun h => ?_, s.jump_sameExcept _⟩
  · rw [State.skipIf_pc, htrue h, if_pos rfl]
  · rw [State.skipIf_pc, hfalse h, if_neg Bool.false_ne_true]

/-! ### Calls and returns (R70, R71) -/

/-- An instruction that ends by raising a trap takes its fault (R65). -/
theorem faultTaken_of_exec_eq {i : Instr} {s : State} {f : Fault} {addr : Option Word}
    (h : exec i s = commit i s (.error { fault := f, addr := addr })) : FaultTaken i s f addr :=
  ⟨_, h, rfl, takeFault_sameExcept _ _ _⟩

/-- 2NNN with a free slot. -/
theorem exec_callAddr_ok (nnn : Addr12) {s : State} (h : s.sp.val < 16) : ∃ t, exec (.callAddr nnn) s = .next t ∧
    t.stack = s.stack.set s.sp.val (s.pc + 2) ∧ t.sp.val = s.sp.val + 1 ∧ t.pc = addrWord nnn ∧
    SameExcept [.stack, .sp, .pc] s t := by
  refine ⟨_, by rw [exec, execCallAddr, push_ok h, Except.map, commit_ok], rfl, rfl, rfl, ?frame⟩
  constructor
  case stack | sp | pc => exact fun hout => absurd (by decide) hout
  all_goals intros; rfl

/-- 2NNN with all 16 slots taken (R111). -/
theorem exec_callAddr_full (nnn : Addr12) {s : State} (h : s.sp.val = 16) :
    FaultTaken (.callAddr nnn) s .stackOverflow none :=
  faultTaken_of_exec_eq (by rw [exec, execCallAddr, push_error h, Except.map])

/-- 00EE with slot `k` the last one taken. -/
theorem exec_ret_ok {s : State} {k : Fin 16} (h : s.sp.val = k.val + 1) : ∃ t, exec .ret s = .next t ∧
    t.sp.val = k.val ∧ t.pc = s.stack[k] ∧ SameExcept [.sp, .pc] s t := by
  have hlast : s.sp.val - 1 = k.val := by omega
  refine ⟨_, by rw [exec, execRet, popPc_ok (by omega), commit_ok], hlast, ?pc, ?frame⟩
  case pc => simp only [hlast, Fin.getElem_fin]
  constructor
  case sp | pc => exact fun hout => absurd (by decide) hout
  all_goals intros; rfl

/-- 00EE with no slot taken (R112). -/
theorem exec_ret_empty {s : State} (h : s.sp.val = 0) : FaultTaken .ret s .stackUnderflow none :=
  faultTaken_of_exec_eq (by rw [exec, execRet, popPc_error h])

/-- A call that a running machine makes without a fault is followed by the rest of the chain. -/
theorem callChain_cons {nnn : Addr12} {rest : List Addr12} {s t : State} (h : exec (.callAddr nnn) s = .next t)
    (hrun : t.Running) : callChain (nnn :: rest) s = callChain rest t := by
  rw [State.Running] at hrun
  simp [callChain, h, hrun]

/-- Calls for which there are free slots all succeed, each taking one. -/
theorem callChain_of_free_slots (targets : List Addr12) {s : State} (hrun : s.Running)
    (hfree : s.sp.val + targets.length ≤ 16) :
    ∃ t, callChain targets s = some t ∧ t.sp.val = s.sp.val + targets.length ∧ t.Running := by
  induction targets generalizing s with
  | nil => exact ⟨s, rfl, rfl, hrun⟩
  | cons nnn rest ih =>
    rw [List.length_cons] at hfree ⊢
    obtain ⟨u, hcall, -, hsp, -, hframe⟩ := exec_callAddr_ok nnn (s := s) (by omega)
    have hurun : u.Running := (hframe.halted (by decide)).trans hrun
    obtain ⟨t, hchain, htsp, htrun⟩ := ih hurun (by omega)
    exact ⟨t, (callChain_cons hcall hurun).trans hchain, by omega, htrun⟩

/-! ### The obligations -/

/-- Settles O27: the call's slot is the last one taken, so it is the one the return pops. -/
theorem returnLandsAfterTheCall : Obligations.ReturnLandsAfterTheCall := by
  intro nnn s hs
  obtain ⟨t, hcall, hstack, hsp, -, -⟩ := exec_callAddr_ok nnn hs
  refine ⟨t, hcall, fun u husp hustack => ?_⟩
  obtain ⟨w, hret, hwsp, hwpc, -⟩ := exec_ret_ok (s := u) (k := ⟨s.sp.val, hs⟩) (husp ▸ hsp)
  refine ⟨w, hret, ?_, Fin.ext hwsp⟩
  rw [hwpc, hustack, hstack, Fin.getElem_fin, Vector.getElem_set_self]

/-- Settles O28, by induction on the calls for any number of free slots; the seventeenth finds none. -/
theorem sixteenCallsSucceedSeventeenthFaults : Obligations.SixteenCallsSucceedSeventeenthFaults := by
  intro targets s hrun hempty hlen
  obtain ⟨t, hchain, hsp, htrun⟩ := callChain_of_free_slots targets hrun (by omega)
  rw [hempty, Nat.zero_add] at hsp
  exact ⟨t, hchain, hsp, htrun, fun hfull nnn => exec_callAddr_full nnn (hsp.trans hfull)⟩

/-- Settles O23: the target is the 12-bit field, widened. -/
theorem jumpSetsPc : Obligations.JumpSetsPc :=
  ⟨rowDecodes_of_mem_controlRows (by simp [controlRows]),
    fun nnn s => ⟨_, rfl, addrWord_toNat nnn, s.jump_sameExcept _⟩⟩

/-- Settles O24: the only slot written is the one that `sp` counts next. -/
theorem callPushesReturnAddress : Obligations.CallPushesReturnAddress := by
  refine ⟨rowDecodes_of_mem_controlRows (by simp [controlRows]), fun nnn s hs => ?_⟩
  obtain ⟨t, hcall, hstack, hsp, hpc, hframe⟩ := exec_callAddr_ok nnn hs
  refine ⟨t, hcall, fun k => ?slots, hsp, hpc ▸ addrWord_toNat nnn, hframe⟩
  rw [hstack, Fin.getElem_fin, Vector.getElem_set]
  simp only [eq_comm, Fin.getElem_fin]

/-- Settles O26, by whether a slot is taken. -/
theorem returnPopsOrUnderflows : Obligations.ReturnPopsOrUnderflows :=
  ⟨rowDecodes_of_mem_controlRows (by simp [controlRows]), fun _ _ => exec_ret_ok, fun _ => exec_ret_empty⟩

/-- Settles O29: each skip is `skipIf` on its comparison. -/
theorem skipOnImmediate : Obligations.SkipOnImmediate :=
  ⟨rowDecodes_of_mem_controlRows (by simp [controlRows]), rowDecodes_of_mem_controlRows (by simp [controlRows]),
    fun _ _ s => ⟨⟨_, rfl, s.skipIf_spec beq_iff_eq.2 beq_eq_false_iff_ne.2⟩,
      ⟨_, rfl, s.skipIf_spec bne_iff_ne.2 bne_eq_false_iff_eq.2⟩⟩⟩

/-- Settles O30: each skip is `skipIf` on its comparison. -/
theorem skipOnRegisters : Obligations.SkipOnRegisters :=
  ⟨rowDecodes_of_mem_controlRows (by simp [controlRows]), rowDecodes_of_mem_controlRows (by simp [controlRows]),
    fun _ _ => decode_eq_unsupported_of_family_5_9,
    fun _ _ s => ⟨⟨_, rfl, s.skipIf_spec beq_iff_eq.2 beq_eq_false_iff_ne.2⟩,
      ⟨_, rfl, s.skipIf_spec bne_iff_ne.2 bne_eq_false_iff_eq.2⟩⟩⟩

/-- Settles O31: the 16-bit sum is exact, since a byte and a 12-bit address add up to at most 0x10FE. -/
theorem computedJumpAddsV0 : Obligations.ComputedJumpAddsV0 := by
  refine ⟨rowDecodes_of_mem_controlRows (by simp [controlRows]), fun nnn s => ?_⟩
  have hsum := offsetTarget_toNat (s.getV 0) nnn
  exact ⟨_, rfl, hsum, by rw [State.jump_pc, hsum]; omega, s.jump_sameExcept _⟩

end Sys2Proof.Machine
end

section
/-! SUPPORT. Register loads and arithmetic (42_register_alu.md): the flag computations as numbers, and what writing a
result, or a result and its flag, does to the state; then the obligations of the family. -/

namespace Sys2Proof.Machine

/-! ### Decoding (R53) -/

/-- A row of the register part of the table decodes. -/
theorem rowDecodes_of_mem_registerRows {mask value : Word} {build : Word → Instr}
    (h : OpRow.mk mask value build ∈ registerRows) : RowDecodes mask value build :=
  rowDecodes_of_mem _ (List.mem_append_left _ (List.mem_append_right _ h))

/-! ### Results and flags as numbers (R77) -/

theorem addCarry_fst_toNat (a b : Byte) : (addCarry a b).1.toNat = (a.toNat + b.toNat) % 256 := by
  rw [addCarry_fst, BitVec.toNat_add]

theorem addCarry_flag_toNat (a b : Byte) :
    (flagByte (addCarry a b).2).toNat = if a.toNat + b.toNat > 255 then 1 else 0 := by
  simp only [flagByte_toNat, addCarry, decide_eq_true_eq]

/-- The difference is the exact one, which may be negative, modulo 256. -/
theorem subNotBorrow_fst_toNat (a b : Byte) :
    ((subNotBorrow a b).1.toNat : Int) = ((a.toNat : Int) - b.toNat) % 256 := by
  have hb := b.isLt
  rw [subNotBorrow_fst, BitVec.toNat_sub]
  omega

theorem subNotBorrow_flag_toNat (a b : Byte) :
    ((flagByte (subNotBorrow a b).2).toNat : Int) = if a.toNat ≥ b.toNat then 1 else 0 := by
  simp only [flagByte_toNat, subNotBorrow, decide_eq_true_eq, Nat.cast_ite, Nat.cast_one, Nat.cast_zero]

theorem shiftRightOut_fst_toNat (a : Byte) : (shiftRightOut a).1.toNat = a.toNat / 2 := by
  rw [shiftRightOut, BitVec.toNat_ushiftRight, Nat.shiftRight_one]

theorem shiftLeftOut_fst_toNat (a : Byte) : (shiftLeftOut a).1.toNat = a.toNat * 2 % 256 := by
  rw [shiftLeftOut, BitVec.toNat_shiftLeft, Nat.shiftLeft_eq, Nat.pow_one]

/-- Bit `k` of a byte as the value of VF: the byte's quotient by `2 ^ k`, modulo 2. -/
theorem flagByte_getLsbD_toNat (a : Byte) (k : Nat) : (flagByte (a.getLsbD k)).toNat = a.toNat / 2 ^ k % 2 := by
  rw [flagByte_toNat, ← Bool.cond_eq_ite]
  exact Nat.toNat_testBit a.toNat k

theorem shiftRightOut_flag_toNat (a : Byte) : (flagByte (shiftRightOut a).2).toNat = a.toNat % 2 := by
  rw [shiftRightOut, flagByte_getLsbD_toNat, Nat.pow_zero, Nat.div_one]

theorem shiftLeftOut_flag_toNat (a : Byte) : (flagByte (shiftLeftOut a).2).toNat = a.toNat / 128 := by
  have ha := a.isLt
  rw [shiftLeftOut, flagByte_getLsbD_toNat]
  omega

/-! ### Writing a result (R17, R62)

`read` is what a statement reads of a register: its byte, or its value as a number. -/

/-- Writes to the registers, to `pc` and to nothing else. -/
theorem State.withVPc_sameExcept (s : State) (v : Vector Byte 16) (pc : Word) :
    SameExcept [.v, .pc] s { s with v := v, pc := pc } := by
  constructor
  case v | pc => exact fun hout => absurd (by decide) hout
  all_goals intros; rfl

/-- An instruction that ends by writing Vx changes no other register. -/
theorem State.setV_advance_spec {β : Type} (read : Byte → β) (s : State) (x : Reg) {b : Byte} {result : β}
    (hresult : read b = result) :
    (∀ r, read ((s.setV x b).advance.getV r) = if r = x then result else read (s.getV r)) ∧
      (s.setV x b).advance.pc = s.pc + 2 ∧ SameExcept [.v, .pc] s (s.setV x b).advance := by
  refine ⟨fun r => ?_, rfl, s.withVPc_sameExcept _ _⟩
  rw [State.advance_getV, State.setV_getV, apply_ite read, hresult]

/-- The same, with Vx told bit by bit. -/
theorem State.setV_advance_bits (s : State) (x : Reg) {b : Byte} {bits : Nat → Bool}
    (hbits : ∀ k, b.getLsbD k = bits k) :
    (∀ k < 8, ((s.setV x b).advance.getV x).getLsbD k = bits k) ∧
      (∀ r, r ≠ x → (s.setV x b).advance.getV r = s.getV r) ∧
      (s.setV x b).advance.pc = s.pc + 2 ∧ SameExcept [.v, .pc] s (s.setV x b).advance := by
  obtain ⟨hv, hpc, hframe⟩ := s.setV_advance_spec (fun c => c) x (b := b) rfl
  refine ⟨fun k _ => ?_, fun r hr => (hv r).trans (if_neg hr), hpc, hframe⟩
  rw [hv x, if_pos rfl, hbits k]

/-- An instruction that ends by writing a result to Vx and its flag to VF, the flag last. -/
theorem State.setVFlag_advance_spec {β : Type} (read : Byte → β) (s : State) (x : Reg) {p : Byte × Bool}
    {flag result : β} (hflag : read (flagByte p.2) = flag) (hresult : read p.1 = result) :
    (∀ r, read ((s.setVFlag x p).advance.getV r) =
      if r = 15 then flag else if r = x then result else read (s.getV r)) ∧
      (s.setVFlag x p).advance.pc = s.pc + 2 ∧ SameExcept [.v, .pc] s (s.setVFlag x p).advance := by
  refine ⟨fun r => ?_, rfl, s.withVPc_sameExcept _ _⟩
  rw [State.advance_getV, State.setVFlag_getV, apply_ite read, apply_ite read, hflag, hresult]

/-- Counting a draw writes nothing but the count. -/
theorem State.withDraws_sameExcept (s : State) (d : Nat) : SameExcept [.draws] s (s.withDraws d) := by
  constructor
  case draws => exact fun hout => absurd (by decide) hout
  all_goals intros; rfl

/-! ### The obligations -/

/-- Settles O32: both write Vx and no flag. -/
theorem loadAndAddImmediate : Obligations.LoadAndAddImmediate :=
  ⟨rowDecodes_of_mem_registerRows (by simp [registerRows]), rowDecodes_of_mem_registerRows (by simp [registerRows]),
    fun x _ s => ⟨⟨_, rfl, s.setV_advance_spec (fun b => b) x rfl⟩,
      ⟨_, rfl, s.setV_advance_spec BitVec.toNat x (addCarry_fst_toNat _ _)⟩⟩⟩

/-- Settles O33: each is the operation of the word library, whose bits the library gives. -/
theorem copyAndLogicWriteOnlyVx : Obligations.CopyAndLogicWriteOnlyVx := by
  refine ⟨rowDecodes_of_mem_registerRows (by simp [registerRows]),
    rowDecodes_of_mem_registerRows (by simp [registerRows]), rowDecodes_of_mem_registerRows (by simp [registerRows]),
    rowDecodes_of_mem_registerRows (by simp [registerRows]), fun x y s => ?_⟩
  rw [List.forall_mem_cons, List.forall_mem_cons, List.forall_mem_cons, List.forall_mem_singleton]
  exact ⟨⟨_, rfl, s.setV_advance_bits x fun _ => rfl⟩,
    ⟨_, rfl, s.setV_advance_bits x fun _ => BitVec.getLsbD_or⟩,
    ⟨_, rfl, s.setV_advance_bits x fun _ => BitVec.getLsbD_and⟩,
    ⟨_, rfl, s.setV_advance_bits x fun _ => BitVec.getLsbD_xor⟩⟩

/-- Settles O34: the carry goes to VF after the sum goes to Vx, so it stays when X is F. -/
theorem addRegisterSetsCarry : Obligations.AddRegisterSetsCarry :=
  ⟨rowDecodes_of_mem_registerRows (by simp [registerRows]), fun x _ s =>
    ⟨_, rfl, s.setVFlag_advance_spec BitVec.toNat x (addCarry_flag_toNat _ _) (addCarry_fst_toNat _ _)⟩⟩

/-- Settles O35: the two differ only in which operand is the minuend. -/
theorem subtractSetsNotBorrow : Obligations.SubtractSetsNotBorrow := by
  refine ⟨rowDecodes_of_mem_registerRows (by simp [registerRows]),
    rowDecodes_of_mem_registerRows (by simp [registerRows]), fun x y s => ?_⟩
  have hsub (a b : Byte) := s.setVFlag_advance_spec (fun c => (c.toNat : Int)) x
    (subNotBorrow_flag_toNat a b) (subNotBorrow_fst_toNat a b)
  rw [List.forall_mem_cons, List.forall_mem_singleton]
  exact ⟨⟨_, rfl, hsub (s.getV x) (s.getV y)⟩, ⟨_, rfl, hsub (s.getV y) (s.getV x)⟩⟩

/-- Settles O36: neither shift reads Vy. -/
theorem shiftSetsBitShiftedOut : Obligations.ShiftSetsBitShiftedOut :=
  ⟨rowDecodes_of_mem_registerRows (by simp [registerRows]), rowDecodes_of_mem_registerRows (by simp [registerRows]),
    fun x _ s =>
      ⟨⟨_, rfl, s.setVFlag_advance_spec BitVec.toNat x (shiftRightOut_flag_toNat _) (shiftRightOut_fst_toNat _)⟩,
        ⟨_, rfl, s.setVFlag_advance_spec BitVec.toNat x (shiftLeftOut_flag_toNat _) (shiftLeftOut_fst_toNat _)⟩⟩⟩

/-- Settles O37: the masked byte is written to Vx, then the draw is counted; nothing is asked of the byte. -/
theorem randomByteUnderMask : Obligations.RandomByteUnderMask := by
  refine ⟨rowDecodes_of_mem_registerRows (by simp [registerRows]), fun x nn s => ?_⟩
  obtain ⟨hbits, hothers, hpc, hframe⟩ := s.setV_advance_bits x (b := Config.rand s.draws &&& nn)
    fun _ => BitVec.getLsbD_and
  have hcount := (s.setV x (Config.rand s.draws &&& nn)).advance.withDraws_sameExcept (s.draws + 1)
  exact ⟨_, rfl, hbits, hothers, rfl, hpc, (hframe.weaken (by decide)).trans (hcount.weaken (by decide))⟩

end Sys2Proof.Machine
end

section
/-! SUPPORT. The index register and memory transfers (43_index_memory.md): what writing `I`, a block of memory or a
block of registers does to the state and what it leaves; then the obligations of the family. -/

namespace Sys2Proof.Machine

/-! ### Decoding (R53) -/

/-- A row of the part of the table from ANNN to FX18 decodes. -/
theorem rowDecodes_of_mem_memoryAndDeviceRows {mask value : Word} {build : Word → Instr}
    (h : OpRow.mk mask value build ∈ memoryAndDeviceRows) : RowDecodes mask value build :=
  rowDecodes_of_mem _ (List.mem_append_right _ h)

/-! ### Writes that an instruction ends with (R20, R62) -/

/-- A write to `I` changes nothing else. -/
theorem State.setIdx_sameExcept (s : State) (w : Word) : SameExcept [.idx] s (s.setIdx w) := by
  constructor
  case idx => exact fun hout => absurd List.mem_cons_self hout
  all_goals intros; rfl

/-- An instruction that ends by writing `I` leaves there the low 12 bits of what it writes. -/
theorem State.setIdx_advance_spec (s : State) {w : Word} {n : Nat} (hw : w.toNat % 4096 = n) :
    (s.setIdx w).advance.idx.toNat = n ∧ (s.setIdx w).advance.pc = s.pc + 2 ∧
      SameExcept [.idx, .pc] s (s.setIdx w).advance :=
  ⟨(mask12_toNat w).trans hw, rfl, ((s.setIdx_sameExcept w).weaken (by decide)).trans
    ((State.jump_sameExcept _ _).weaken (by decide))⟩

/-- An instruction that ends by writing memory changes nothing but memory and `pc`, and so leaves `I` (D11). -/
theorem State.setMem_advance_sameExcept (s : State) (m : Memory) :
    SameExcept [.mem, .pc] s ({ s with mem := m } : State).advance :=
  ((sameExcept_mem s m).weaken (by decide)).trans ((State.jump_sameExcept _ _).weaken (by decide))

/-! ### Transfers inside memory (R93, R95); FX55 is `exec_storeRegs_ok` -/

@[simp] theorem bcdDigits_length (b : Byte) : (bcdDigits b).length = 3 := rfl

/-- FX33 that faults nowhere only puts the three digits of Vx at `I` and goes on to the next instruction. -/
theorem exec_ldBVx_ok {x : Reg} {s : State} (hm : s.mem.wf = true) (h : s.idx.toNat + 2 < memSize) :
    ∃ m, exec (.ldBVx x) s = .next ({ s with mem := m } : State).advance ∧
      (∀ k (hk : k < (bcdDigits (s.getV x)).length), m.peek (s.idx.toNat + k) = (bcdDigits (s.getV x))[k]) ∧
      ∀ a, (a < s.idx.toNat ∨ s.idx.toNat + 2 < a) → m.peek a = s.mem.peek a := by
  have hlen := bcdDigits_length (s.getV x)
  obtain ⟨m, hwrite, -, hpeek⟩ :=
    writeBlock_ok hm (a := s.idx.toNat) (bs := bcdDigits (s.getV x)) (by omega)
  refine ⟨m, ?next, fun k hk => ?stored, fun a ha => ?frame⟩
  case next =>
    simp only [exec, execLdBVx, hwrite, Except.map, commit_ok]
  case stored =>
    rw [hpeek, dif_pos (by omega)]
    simp only [Nat.add_sub_cancel_left]
  case frame =>
    rw [hpeek, dif_neg (by omega)]

/-- FX65 that faults nowhere only loads the bytes from `I` up and goes on to the next instruction. -/
theorem exec_loadRegs_ok {x : Reg} {s : State} (h : s.idx.toNat + x.val < memSize) :
    ∃ v, exec (.loadRegs x) s = .next ({ s with v := v } : State).advance ∧
      ∀ r : Reg, v[r] = if r ≤ x then s.mem.peek (s.idx.toNat + r.val) else s.getV r := by
  refine ⟨loadBlock s.v 0 ((List.range (x.val + 1)).map fun k => s.mem.peek (s.idx.toNat + k)), ?next,
    fun r => ?loaded⟩
  case next =>
    have hfit : s.idx.toNat + (x.val + 1) ≤ memSize := h
    simp only [exec, execLoadRegs, readBlock_ok hfit, Except.map, commit_ok]
  case loaded =>
    rw [loadBlock_getElem]
    simp only [List.length_map, List.length_range, List.getElem_map, List.getElem_range]
    by_cases hr : r ≤ x
    · have hrx : r.val ≤ x.val := hr
      rw [dif_pos (by omega), if_pos hr, Nat.sub_zero]
    · have hrx : ¬ r.val ≤ x.val := hr
      rw [dif_neg (by omega), if_neg hr, State.getV]

/-! ### The obligations -/

/-- Settles O40: a digit is below 10, so a byte holds it. -/
theorem bcdStoresThreeDigits : Obligations.BcdStoresThreeDigits := by
  refine ⟨rowDecodes_of_mem_memoryAndDeviceRows (by simp [memoryAndDeviceRows]), fun x s hm hfit => ?_⟩
  obtain ⟨m, hexec, hdigit, hframe⟩ := exec_ldBVx_ok (x := x) hm hfit
  have hV := (s.getV x).isLt
  refine ⟨_, hexec, ?hundreds, ?tens, ?ones, hframe, rfl, s.setMem_advance_sameExcept m⟩
  case hundreds =>
    exact (congrArg BitVec.toNat (hdigit 0 (by simp))).trans (Nat.mod_eq_of_lt (by omega))
  case tens =>
    exact (congrArg BitVec.toNat (hdigit 1 (by simp))).trans (Nat.mod_eq_of_lt (by omega))
  case ones =>
    exact (congrArg BitVec.toNat (hdigit 2 (by simp))).trans (Nat.mod_eq_of_lt (by omega))

/-- Settles O41: only memory and `pc` are written, so `I` stays. -/
theorem storeRegistersToMemory : Obligations.StoreRegistersToMemory := by
  refine ⟨rowDecodes_storeRegs, fun x s hm hfit => ?_⟩
  obtain ⟨m, hexec, -, hstored, hframe⟩ := exec_storeRegs_ok hm hfit
  exact ⟨_, hexec, hstored, hframe, rfl, s.setMem_advance_sameExcept m⟩

/-- Settles O42: only registers and `pc` are written, so memory and `I` stay. -/
theorem loadRegistersFromMemory : Obligations.LoadRegistersFromMemory := by
  refine ⟨rowDecodes_of_mem_memoryAndDeviceRows (by simp [memoryAndDeviceRows]), fun x s hfit => ?_⟩
  obtain ⟨v, hexec, hloaded⟩ := exec_loadRegs_ok hfit
  exact ⟨_, hexec, hloaded, rfl, s.withVPc_sameExcept v _⟩

/-- Settles O38: the mask of `I` leaves a 12-bit address as it is. -/
theorem loadIndex : Obligations.LoadIndex := by
  refine ⟨rowDecodes_of_mem_memoryAndDeviceRows (by simp [memoryAndDeviceRows]), fun nnn s => ?_⟩
  have hnnn := nnn.isLt
  have hmask : (addrWord nnn).toNat % 4096 = nnn.toNat := by rw [addrWord_toNat, Nat.mod_eq_of_lt hnnn]
  obtain ⟨hidx, hpc, hframe⟩ := s.setIdx_advance_spec hmask
  exact ⟨_, rfl, hidx, by omega, hpc, hframe⟩

/-- Settles O39: the 16-bit sum of FX1E wraps at a multiple of 4096, and a glyph lies below 4096, so the mask of `I`
gives the sum modulo 4096 and keeps the glyph's address. -/
theorem addIndexAndGlyphAddress : Obligations.AddIndexAndGlyphAddress := by
  refine ⟨rowDecodes_of_mem_memoryAndDeviceRows (by simp [memoryAndDeviceRows]),
    rowDecodes_of_mem_memoryAndDeviceRows (by simp [memoryAndDeviceRows]), fun x s => ?_⟩
  have hsum : (s.idx + byteWord (s.getV x)).toNat % 4096 = (s.idx.toNat + (s.getV x).toNat) % 4096 := by
    rw [BitVec.toNat_add, byteWord_toNat, Nat.mod_mod_of_dvd _ (by decide)]
  have hglyph : (glyphAddr (s.getV x)).toNat % 4096 = 0x050 + 5 * ((s.getV x).toNat % 16) := by
    rw [glyphAddr_toNat]
    omega
  exact ⟨⟨_, rfl, s.setIdx_advance_spec hsum⟩, ⟨_, rfl, s.setIdx_advance_spec hglyph⟩⟩

end Sys2Proof.Machine
end

section
/-! SUPPORT. The display (44_display.md): drawing distinct pixels as a whole, in any order and twice; the pixels one
DXYN covers and the state it draws them into; then the obligations of the family. -/

namespace Sys2Proof.Machine

/-! ### Drawing distinct pixels (R97, R98) -/

section
variable {fb : Framebuffer} {ps qs : List (Fin 64 × Fin 32)} (hnd : ps.Nodup)
include hnd

/-- A collision: some pixel of the sprite was on before. -/
theorem drawPixels_snd_iff : (drawPixels fb ps).2 = true ↔ ∃ p ∈ ps, fb.get p.1 p.2 = true := by
  rw [(drawPixels_spec fb hnd).2, List.any_eq_true]

/-- The pixels that change are those drawn. -/
theorem drawPixels_get_ne_iff {px : Fin 64} {py : Fin 32} :
    (drawPixels fb ps).1.get px py ≠ fb.get px py ↔ (px, py) ∈ ps := by
  rw [(drawPixels_spec fb hnd).1]
  cases fb.get px py <;> simp

/-- A collision, told by its effect: some pixel that was on went off. -/
theorem drawPixels_snd_iff_went_off : (drawPixels fb ps).2 = true ↔
    ∃ px py, fb.get px py = true ∧ (drawPixels fb ps).1.get px py = false := by
  rw [drawPixels_snd_iff hnd]
  constructor
  · rintro ⟨⟨px, py⟩, hmem, hon⟩
    exact ⟨px, py, hon, by simpa [hon] using (drawPixels_get_ne_iff (fb := fb) hnd).2 hmem⟩
  · rintro ⟨px, py, hon, hoff⟩
    exact ⟨(px, py), (drawPixels_get_ne_iff hnd).1 (by rw [hon, hoff]; exact Bool.false_ne_true), hon⟩

/-- The order of the pixels does not matter. -/
theorem drawPixels_perm (hperm : qs.Perm ps) : drawPixels fb qs = drawPixels fb ps := by
  have hnd' := hperm.nodup_iff.2 hnd
  refine Prod.ext (Framebuffer.ext_get fun px py => ?pixel) (Bool.eq_iff_iff.2 ?flag)
  case pixel =>
    rw [(drawPixels_spec fb hnd').1, (drawPixels_spec fb hnd).1]
    simp only [hperm.mem_iff]
  case flag =>
    rw [drawPixels_snd_iff hnd', drawPixels_snd_iff hnd]
    simp only [hperm.mem_iff]

/-- A second draw of the same pixels inverts them back. -/
theorem drawPixels_twice_get (px : Fin 64) (py : Fin 32) :
    (drawPixels (drawPixels fb ps).1 ps).1.get px py = fb.get px py := by
  rw [(drawPixels_spec _ hnd).1, (drawPixels_spec fb hnd).1, Bool.xor_assoc, Bool.xor_self, Bool.xor_false]

/-- Where nothing was on, a second draw collides when there is a pixel to draw. -/
theorem drawPixels_twice_snd_iff (hoff : ∀ p ∈ ps, fb.get p.1 p.2 = false) :
    (drawPixels (drawPixels fb ps).1 ps).2 = true ↔ ∃ p, p ∈ ps := by
  rw [drawPixels_snd_iff hnd]
  refine exists_congr fun p => and_iff_left_of_imp fun hp => ?_
  rw [(drawPixels_spec fb hnd).1, hoff p hp, Bool.false_xor]
  exact decide_eq_true hp

end

/-! ### The pixels of one DXYN (R96, R97, R99) -/

/-- The pixels that DXYN toggles in a state whose rows lie inside memory. -/
def coveredPixels (s : State) (x y : Reg) (n : Fin 16) : List (Fin 64 × Fin 32) :=
  spritePixels (s.getV x) (s.getV y) 0 ((List.range n.val).map fun r => s.mem.peek (s.idx.toNat + r))

theorem mem_coveredPixels {s : State} {x y : Reg} {n : Fin 16} {px : Fin 64} {py : Fin 32} :
    (px, py) ∈ coveredPixels s x y n ↔ SpriteCovers s x y n px py := by
  simp only [coveredPixels, mem_spritePixels, SpriteCovers, List.length_map, List.length_range, List.getElem_map,
    List.getElem_range, Prod.mk.injEq, pixelX, pixelY, Fin.ext_iff, Nat.zero_add]
  exact ⟨fun ⟨r, hr, c, h⟩ => ⟨r, c, hr, h⟩, fun ⟨r, c, hr, h⟩ => ⟨r, hr, c, h⟩⟩

/-- A DXYN has at most 15 rows, so none of its pixels is repeated. -/
theorem coveredPixels_nodup (s : State) (x y : Reg) (n : Fin 16) : (coveredPixels s x y n).Nodup :=
  spritePixels_nodup (by rw [List.length_map, List.length_range]; omega)

/-! ### The state after DXYN (R62, R64, R96) -/

/-- The end of a DXYN that faults nowhere: the pixels drawn, VF the collision, `pc` at the next instruction. -/
def State.drawn (s : State) (ps : List (Fin 64 × Fin 32)) : State :=
  (({ s with fb := (drawPixels s.fb ps).1 } : State).setV regF (flagByte (drawPixels s.fb ps).2)).advance

@[simp] theorem State.drawn_pc (s : State) (ps : List (Fin 64 × Fin 32)) : (s.drawn ps).pc = s.pc + 2 := rfl

@[simp] theorem State.drawn_getV (s : State) (ps : List (Fin 64 × Fin 32)) (r : Reg) :
    (s.drawn ps).getV r = if r = regF then flagByte (drawPixels s.fb ps).2 else s.getV r := by
  rw [State.drawn, State.advance_getV, State.setV_getV]
  rfl

theorem State.drawn_getV_ne (s : State) (ps : List (Fin 64 × Fin 32)) {r : Reg} (hr : r ≠ regF) :
    (s.drawn ps).getV r = s.getV r := by
  rw [State.drawn_getV, if_neg hr]

/-- VF after a draw, from a proposition that says when there is a collision. -/
theorem State.drawn_getV_regF (s : State) (ps : List (Fin 64 × Fin 32)) {collision : Prop}
    (h : (drawPixels s.fb ps).2 = true ↔ collision) :
    (collision → (s.drawn ps).getV regF = 1) ∧ (¬collision → (s.drawn ps).getV regF = 0) := by
  rw [State.drawn_getV, if_pos rfl]
  refine ⟨fun hc => ?_, fun hc => ?_⟩
  · rw [h.2 hc]
    rfl
  · rw [Bool.eq_false_iff.2 (mt h.1 hc)]
    rfl

/-- A write to the framebuffer changes nothing else. -/
theorem State.setFb_sameExcept (s : State) (fb : Framebuffer) : SameExcept [.fb] s { s with fb := fb } := by
  constructor
  case fb => exact fun hout => absurd List.mem_cons_self hout
  all_goals intros; rfl

theorem State.drawn_sameExcept (s : State) (ps : List (Fin 64 × Fin 32)) :
    SameExcept [.fb, .v, .pc] s (s.drawn ps) := by
  obtain ⟨-, -, hflag⟩ := State.setV_advance_spec (fun b => b) { s with fb := (drawPixels s.fb ps).1 } regF
    (b := flagByte (drawPixels s.fb ps).2) rfl
  exact ((s.setFb_sameExcept _).weaken (by decide)).trans (hflag.weaken (by decide))

/-- The next DXYN covers the same pixels when VF, which the first one wrote, is no coordinate of it. -/
theorem coveredPixels_drawn (s : State) (ps : List (Fin 64 × Fin 32)) {x y : Reg} (n : Fin 16) (hx : x ≠ regF)
    (hy : y ≠ regF) : coveredPixels (s.drawn ps) x y n = coveredPixels s x y n := by
  rw [coveredPixels, s.drawn_getV_ne ps hx, s.drawn_getV_ne ps hy]
  rfl

/-- Reading a block whose last byte lies inside memory, or an empty block from any address. -/
theorem readBlock_ok_of_last {m : Memory} {a n : Nat} (h : n = 0 ∨ a + n - 1 < memSize) :
    readBlock m a n = .ok ((List.range n).map fun k => m.peek (a + k)) := by
  cases n with
  | zero => rfl
  | succ n => exact readBlock_ok (by omega)

/-- DXYN with its rows inside memory draws the pixels it covers. -/
theorem exec_drw_ok (x y : Reg) {n : Fin 16} {s : State} (h : n.val = 0 ∨ s.idx.toNat + n.val - 1 < memSize) :
    exec (.drw x y n) s = .next (s.drawn (coveredPixels s x y n)) := by
  rw [exec, execDrw, readBlock_ok_of_last h, Except.map, commit_ok]
  rfl

/-! ### Clear screen (R100) -/

theorem exec_cls_of_extCls {s : State} (h : s.cfg.extCls = true) :
    exec .cls s = .next ({ s with fb := Framebuffer.clear } : State).advance := by
  rw [exec, execCls, if_pos h]

theorem exec_cls_of_not_extCls {s : State} (h : s.cfg.extCls = false) : exec .cls s = .next s.advance := by
  rw [exec, execCls, if_neg (by simp [h])]

theorem State.setFb_advance_sameExcept (s : State) (fb : Framebuffer) :
    SameExcept [.fb, .pc] s ({ s with fb := fb } : State).advance :=
  ((s.setFb_sameExcept fb).weaken (by decide)).trans ((State.jump_sameExcept _ _).weaken (by decide))

/-! ### The obligations -/

/-- Settles O45: the drawn pixels are distinct, so each is inverted once, and the flag is the collision by its
effect. -/
theorem drawTogglesTheCoveredPixels : Obligations.DrawTogglesTheCoveredPixels := by
  refine ⟨rowDecodes_of_mem_memoryAndDeviceRows (by simp [memoryAndDeviceRows]), fun x y n s hfit => ?_⟩
  have hnd := coveredPixels_nodup s x y n
  obtain ⟨hcollision, hnone⟩ := s.drawn_getV_regF _ (drawPixels_snd_iff_went_off hnd)
  exact ⟨_, exec_drw_ok x y hfit, fun px py => (drawPixels_get_ne_iff hnd).trans mem_coveredPixels, hcollision, hnone,
    fun r hr => s.drawn_getV_ne _ hr, s.drawn_pc _, s.drawn_sameExcept _⟩

/-- Settles O46: the second draw covers the same pixels and inverts them back; where none was on before, it finds all
of them on. -/
theorem drawingTwiceRestoresTheScreen : Obligations.DrawingTwiceRestoresTheScreen := by
  intro x y n s hx hy hfit
  have hnd := coveredPixels_nodup s x y n
  have hsecond := exec_drw_ok (s := s.drawn (coveredPixels s x y n)) x y hfit
  rw [coveredPixels_drawn s _ n hx hy] at hsecond
  refine ⟨_, _, exec_drw_ok x y hfit, hsecond, drawPixels_twice_get hnd, fun hoff => ?_⟩
  simp only [← mem_coveredPixels] at hoff ⊢
  have hnone : ¬∃ p ∈ coveredPixels s x y n, s.fb.get p.1 p.2 = true := by
    rintro ⟨p, hp, hon⟩
    rw [hoff p.1 p.2 hp] at hon
    exact Bool.false_ne_true hon
  obtain ⟨hfull, hempty⟩ := (s.drawn (coveredPixels s x y n)).drawn_getV_regF _
    (drawPixels_twice_snd_iff hnd fun p hp => hoff p.1 p.2 hp)
  rw [Prod.exists] at hfull hempty
  exact ⟨(s.drawn_getV_regF _ (drawPixels_snd_iff hnd)).2 hnone, hfull, hempty⟩

/-- Settles O47: at most 15 rows are distinct modulo 32, and drawing distinct pixels depends only on which they are. -/
theorem drawOrderDoesNotMatter : Obligations.DrawOrderDoesNotMatter := by
  intro fb x0 y0 rows hrows
  have hnd : (spritePixels x0 y0 0 rows).Nodup := spritePixels_nodup (by omega)
  exact ⟨hnd, fun _ => drawPixels_perm hnd, drawPixels_snd_iff hnd, drawPixels_snd_iff_went_off hnd⟩

/-- Settles O48, in each configuration. -/
theorem clearScreenUnderExtCls : Obligations.ClearScreenUnderExtCls := by
  intro s
  cases h : s.cfg.extCls with
  | true =>
    exact ⟨_, exec_cls_of_extCls h, rfl, fun _ => ⟨Framebuffer.clear_get, s.setFb_advance_sameExcept _⟩,
      fun hf => absurd hf (by decide)⟩
  | false => exact ⟨_, exec_cls_of_not_extCls h, rfl, fun ht => absurd ht (by decide), fun _ => s.jump_sameExcept _⟩

end Sys2Proof.Machine
end

section
/-! SUPPORT. Key input and timers (45_input_timers.md): which key FX0A finds, when it waits, and what a write to a
timer does to the state; then the obligations of the family. -/

namespace Sys2Proof.Machine

/-! ### The key of FX0A (R104) -/

/-- The pressed key below which none is pressed is the one found. -/
theorem firstPressed_eq_some_of_lowest {key : Vector Bool 16} {k : Key} (hk : key[k] = true)
    (hlow : ∀ j : Key, j < k → key[j] = false) : firstPressed key = some k := by
  cases hfound : firstPressed key with
  | none => exact absurd (hk.symm.trans (firstPressed_none.1 hfound k)) (by decide)
  | some i =>
    obtain ⟨hi, hbelow⟩ := firstPressed_some hfound
    rcases lt_trichotomy i k with hik | rfl | hki
    · exact absurd (hi.symm.trans (hlow i hik)) (by decide)
    · rfl
    · exact absurd (hk.symm.trans (hbelow k hki)) (by decide)

/-- FX0A that finds no key reports that it waits (R57). -/
theorem completedResult_ldVxK_waits {s : State} (x : Reg) (h : firstPressed s.key = none) :
    completedResult (.ldVxK x) s = .waiting :=
  if_pos (Option.isNone_iff_eq_none.2 h)

/-! ### Writes to the timers (R106, R107) -/

/-- A write to DT changes nothing else. -/
theorem State.setDt_sameExcept (s : State) (b : Byte) : SameExcept [.dt] s { s with dt := b } := by
  constructor
  case dt => exact fun hout => absurd List.mem_cons_self hout
  all_goals intros; rfl

/-- A write to ST changes nothing else. -/
theorem State.setSt_sameExcept (s : State) (b : Byte) : SameExcept [.st] s { s with st := b } := by
  constructor
  case st => exact fun hout => absurd List.mem_cons_self hout
  all_goals intros; rfl

/-- An instruction that writes one part of the state and goes on to the next changes that part and `pc` alone. -/
theorem SameExcept.advance {p : Part} {s t : State} (h : SameExcept [p] s t) : SameExcept [p, .pc] s t.advance :=
  (h.weaken (by simp)).trans ((t.jump_sameExcept _).weaken (by simp))

/-- The buzzer is off just when ST is 0 (R25). -/
theorem buzzer_eq (s : State) : buzzer s = decide (s.st ≠ 0) := by
  rw [buzzer, decide_eq_decide]
  bv_omega

/-! ### The obligations -/

/-- Settles O49: each skip is `skipIf` on the state of the key that the low nibble names. -/
theorem skipOnKey : Obligations.SkipOnKey := by
  refine ⟨rowDecodes_of_mem_memoryAndDeviceRows (by simp [memoryAndDeviceRows]),
    rowDecodes_of_mem_memoryAndDeviceRows (by simp [memoryAndDeviceRows]), fun x s k hk => ?_⟩
  obtain rfl : k = lowNibble (s.getV x) := Fin.ext hk
  exact ⟨⟨_, rfl, s.skipIf_spec id id⟩, ⟨_, rfl, s.skipIf_spec (congrArg Bool.not) (congrArg Bool.not)⟩⟩

/-- Settles O50: the lowest pressed key is the one found, and a key number fits in a byte. -/
theorem waitForKeyTakesLowestPressed : Obligations.WaitForKeyTakesLowestPressed := by
  refine ⟨rowDecodes_of_mem_memoryAndDeviceRows (by simp [memoryAndDeviceRows]), fun x s =>
    ⟨fun k hk hlow => ?takes, fun hkeys => ?waits⟩⟩
  case takes =>
    exact ⟨_, exec_ldVxK_takes x (firstPressed_eq_some_of_lowest hk hlow),
      s.setV_advance_spec BitVec.toNat x (keyByte_toNat k)⟩
  case waits =>
    have hnone := firstPressed_none.2 hkeys
    exact ⟨exec_ldVxK_waits x hnone, completedResult_ldVxK_waits x hnone⟩

/-- Settles O51: each writes one register or timer and then `pc`. -/
theorem timerMoves : Obligations.TimerMoves :=
  ⟨rowDecodes_of_mem_memoryAndDeviceRows (by simp [memoryAndDeviceRows]),
    rowDecodes_of_mem_memoryAndDeviceRows (by simp [memoryAndDeviceRows]),
    rowDecodes_of_mem_memoryAndDeviceRows (by simp [memoryAndDeviceRows]), fun x s =>
      ⟨⟨_, rfl, s.setV_advance_spec (fun b => b) x rfl⟩,
        ⟨_, rfl, rfl, rfl, (s.setDt_sameExcept _).advance⟩,
        ⟨_, rfl, rfl, buzzer_eq _, rfl, (s.setSt_sameExcept _).advance⟩⟩⟩

end Sys2Proof.Machine
end

section
/-! SUPPORT. Faults, the host's calls and the error reports (60_exceptions.md): where an access past memory faults, what
each host operation does to the state and what it leaves; then the obligations of the family. -/

namespace Sys2Proof.Machine

/-! ### Accesses past memory (R35, R113) -/

/-- A read fails exactly past memory. -/
theorem memRead_eq_error_iff {kind : AccessKind} {m : Memory} {a : Nat} :
    memRead kind m a = .error (outOfBounds kind a) ↔ memSize ≤ a := by
  refine ⟨fun h => ?_, memRead_error⟩
  by_contra hlt
  rw [memRead_ok (Nat.lt_of_not_le hlt)] at h
  cases h

/-- A write fails exactly past memory. -/
theorem memWrite_eq_error_iff {m : Memory} {a : Nat} {b : Byte} :
    memWrite m a b = .error (outOfBounds .write a) ↔ memSize ≤ a := by
  refine ⟨fun h => ?_, memWrite_error⟩
  by_contra hlt
  rw [memWrite_ok (Nat.lt_of_not_le hlt)] at h
  cases h

/-- A block read that begins inside memory and ends past it faults at 0x1000. -/
theorem readBlock_past {m : Memory} {a n : Nat} (ha : a < memSize) (h : memSize < a + n) :
    readBlock m a n = .error { fault := .memoryOutOfBounds .read, addr := some 0x1000 } := by
  rw [readBlock_error (by omega) h, Nat.max_eq_right ha.le]
  rfl

/-- A block write that begins inside memory and ends past it faults at 0x1000. -/
theorem writeBlock_past {m : Memory} {a : Nat} {bs : List Byte} (ha : a < memSize) (h : memSize < a + bs.length) :
    writeBlock m a bs = .error { fault := .memoryOutOfBounds .write, addr := some 0x1000 } := by
  have hbs : bs ≠ [] := List.ne_nil_of_length_pos (by omega)
  rw [writeBlock_error hbs h, Nat.max_eq_right ha.le]
  rfl

/-- A step with `pc` at the last byte of memory or past it takes the fetch fault (R60). -/
theorem step_fetch_past {s : State} (hrun : s.Running) (h : memSize ≤ s.pc.toNat + 1) :
    ∃ t, step s = .next t ∧ SameExcept [.halted] s t ∧
      t.halted = some { fault := .memoryOutOfBounds .fetch, pc := s.pc, opcode := none,
                        addr := some (if s.pc.toNat + 1 = memSize then s.pc + 1 else s.pc) } := by
  split_ifs with hlast
  · have hfetch := fetchWord_error_next (m := s.mem) (pc := s.pc) (by omega) h
    refine ⟨_, step_of_fetch_error hrun hfetch, takeFault_sameExcept _ _ _, ?_⟩
    have haddr : BitVec.ofNat 16 (s.pc.toNat + 1) = s.pc + 1 := by
      rw [BitVec.ofNat_add, BitVec.ofNat_toNat, BitVec.setWidth_eq]
      rfl
    rw [takeFault_halted, faultRecord, outOfBounds, haddr]
  · have hfetch := fetchWord_error_pc (m := s.mem) (pc := s.pc) (by omega)
    refine ⟨_, step_of_fetch_error hrun hfetch, takeFault_sameExcept _ _ _, ?_⟩
    rw [takeFault_halted, faultRecord, outOfBounds, BitVec.ofNat_toNat, BitVec.setWidth_eq]

/-! An instruction whose transfer begins inside memory and ends past it takes the fault at 0x1000 (R64, R113). -/

section
variable {s : State} (hidx : s.idx.toNat < memSize)
include hidx

theorem exec_drw_past (x y : Reg) {n : Fin 16} (h : memSize < s.idx.toNat + n.val) :
    FaultTaken (.drw x y n) s (.memoryOutOfBounds .read) (some 0x1000) :=
  faultTaken_of_exec_eq (by rw [exec, execDrw, readBlock_past hidx h, Except.map])

theorem exec_loadRegs_past {x : Reg} (h : memSize ≤ s.idx.toNat + x.val) :
    FaultTaken (.loadRegs x) s (.memoryOutOfBounds .read) (some 0x1000) :=
  faultTaken_of_exec_eq (by rw [exec, execLoadRegs, readBlock_past hidx (Nat.lt_succ_of_le h), Except.map])

theorem exec_storeRegs_past {x : Reg} (h : memSize ≤ s.idx.toNat + x.val) :
    FaultTaken (.storeRegs x) s (.memoryOutOfBounds .write) (some 0x1000) := by
  have hend : memSize < s.idx.toNat + (regBlock s x).length := by
    rw [regBlock_length]
    omega
  exact faultTaken_of_exec_eq (by rw [exec, execStoreRegs, writeBlock_past hidx hend, Except.map])

theorem exec_ldBVx_past (x : Reg) (h : memSize ≤ s.idx.toNat + 2) :
    FaultTaken (.ldBVx x) s (.memoryOutOfBounds .write) (some 0x1000) := by
  have hend : memSize < s.idx.toNat + (bcdDigits (s.getV x)).length := Nat.lt_succ_of_le h
  exact faultTaken_of_exec_eq (by rw [exec, execLdBVx, writeBlock_past hidx hend, Except.map])

end

/-! ### Timers (R123) -/

/-- A timer counts down by one and holds at 0. -/
theorem tickDown_toNat (t : Byte) : (tickDown t).toNat = t.toNat - 1 := by
  rw [tickDown]
  split_ifs with h
  · bv_omega
  · omega

theorem tickTimers_sameExcept (s : State) : SameExcept [.dt, .st] s (tickTimers s) :=
  ((s.setDt_sameExcept (tickDown s.dt)).weaken (by decide)).trans ((State.setSt_sameExcept _ _).weaken (by decide))

/-- Ticks one after another count each timer down by their number, and not below 0. -/
theorem runHost_ticks (n : Nat) (s : State) :
    (runHost (List.replicate n .tickTimers) s).dt.toNat = s.dt.toNat - n ∧
      (runHost (List.replicate n .tickTimers) s).st.toNat = s.st.toNat - n := by
  induction n generalizing s with
  | zero => exact ⟨rfl, rfl⟩
  | succ n ih =>
    obtain ⟨hdt, hst⟩ := ih (tickTimers s)
    rw [tickTimers_dt, tickDown_toNat, Nat.sub_sub, Nat.add_comm] at hdt
    rw [tickTimers_st, tickDown_toNat, Nat.sub_sub, Nat.add_comm] at hst
    exact ⟨hdt, hst⟩

/-! ### Keys and pixels (R125, R126) -/

/-- A write to the keys changes nothing else. -/
theorem State.setKeys_sameExcept (s : State) (key : Vector Bool 16) : SameExcept [.key] s { s with key := key } := by
  constructor
  case key => exact fun hout => absurd List.mem_cons_self hout
  all_goals intros; rfl

/-- `setKey` on a key of the pad writes that key. -/
theorem setKey_of_key (k : Key) (pressed : Bool) (s : State) :
    setKey k.val pressed s = ({ s with key := s.key.set k pressed }, .ok) :=
  dif_pos (by omega)

theorem setKey_out_of_range {k : Int} (h : ¬(0 ≤ k ∧ k < 16)) (pressed : Bool) (s : State) :
    setKey k pressed s = (s, .outOfRange [k]) :=
  dif_neg h

theorem getPixel_of_pixel (x : Fin 64) (y : Fin 32) (s : State) : getPixel x.val y.val s = .pixel (s.fb.get x y) :=
  dif_pos (by omega)

theorem getPixel_out_of_range {x y : Int} (h : ¬(0 ≤ x ∧ x < 64) ∨ ¬(0 ≤ y ∧ y < 32)) (s : State) :
    getPixel x y s = .outOfRange [x, y] :=
  dif_neg (not_and_or.2 h)

/-! ### The loader (R115) -/

theorem load_too_long {image : List Byte} (h : maxImage < image.length) (s : State) :
    load image s = (s, .loadError image.length) :=
  if_pos h

theorem load_fits {image : List Byte} (h : ¬maxImage < image.length) (s : State) :
    load image s = (loadImage image s, .ok) :=
  if_neg h

/-! ### A halted machine (R118, R119) -/

theorem callHost_step_of_halted {s : State} {r : FaultRecord} (h : s.halted = some r) :
    callHost .step s = (s, .stepped (.halted r)) := by
  rw [callHost, stepFull_of_halted h]

/-- On a halted machine a host operation other than `reset` reaches only the timers, the keys and memory. -/
theorem callHost_frame_of_halted {c : HostCall} {s : State} {r : FaultRecord} (h : s.halted = some r)
    (hc : c ≠ .reset) : SameExcept [.dt, .st, .key, .mem] s (callHost c s).1 := by
  cases c with
  | step =>
    rw [callHost_step_of_halted h]
    exact .refl _ s
  | tickTimers => exact (tickTimers_sameExcept s).weaken (by decide)
  | setKey k pressed =>
    obtain ⟨key, hkey⟩ := setKey_key_only k pressed s
    rw [callHost, hkey]
    exact (s.setKeys_sameExcept key).weaken (by decide)
  | getPixel | buzzer => exact .refl _ s
  | load image =>
    obtain ⟨m, hload, -⟩ := load_mem_only image s
    rw [callHost, hload]
    exact (sameExcept_mem s m).weaken (by decide)
  | reset => exact absurd rfl hc
  | installFont =>
    obtain ⟨m, hfont, -⟩ := installFont_mem_only s
    rw [callHost, hfont]
    exact (sameExcept_mem s m).weaken (by decide)

/-- So does a run of them: each leaves the machine halted for the next. -/
theorem runHost_frame_of_halted {cs : List HostCall} {s : State} {r : FaultRecord} (h : s.halted = some r)
    (hcs : .reset ∉ cs) : SameExcept [.dt, .st, .key, .mem] s (runHost cs s) := by
  induction cs generalizing s with
  | nil => exact .refl _ s
  | cons c cs ih =>
    rw [List.mem_cons, not_or] at hcs
    obtain ⟨hc, hcs⟩ := hcs
    have hfirst := callHost_frame_of_halted h (Ne.symm hc)
    exact hfirst.trans (ih ((hfirst.halted (by decide)).trans h) hcs)

/-! ### The obligations -/

/-- Settles O22: `halted` is in the frame of every such run. -/
theorem haltedUntilReset : Obligations.HaltedUntilReset := by
  intro calls s r h hreset
  have hframe := runHost_frame_of_halted h hreset
  exact ⟨(hframe.halted (by decide)).trans h, hframe⟩

/-- Settles O43: with `I` inside memory, the first address past memory that a block reaches is 0x1000. -/
theorem memoryOutOfBoundsFaults : Obligations.MemoryOutOfBoundsFaults := by
  refine ⟨fun _ _ _ _ => memRead_eq_error_iff, fun _ _ _ _ => memWrite_eq_error_iff, fun s hrun hpc => ?fetch,
    fun s hle => ?blocks⟩
  case fetch =>
    obtain ⟨t, hstep, hframe, hhalted⟩ := step_fetch_past hrun (Nat.succ_le_succ hpc)
    refine ⟨t, hstep, hframe, ?_⟩
    simpa only [memSize, Nat.reduceEqDiff] using hhalted
  case blocks =>
    have hidx : s.idx.toNat < memSize := Nat.lt_succ_of_le hle
    refine ⟨fun x y n hn h => exec_drw_past hidx x y ?_, fun _ => exec_loadRegs_past hidx,
      fun _ => exec_storeRegs_past hidx, exec_ldBVx_past hidx⟩
    simp only [memSize]
    omega

/-- Settles O54: one tick is `tickDown` on each timer; n ticks by induction. -/
theorem tickCountsDownAndHolds : Obligations.TickCountsDownAndHolds :=
  ⟨fun s => ⟨rfl, tickTimers_sameExcept s, tickDown_toNat s.dt, tickDown_toNat s.st⟩, fun s n => runHost_ticks n s⟩

/-- Settles O25. -/
theorem callWithFullStackOverflows : Obligations.CallWithFullStackOverflows :=
  fun nnn _ => exec_callAddr_full nnn

/-- Settles O52: the catch-all only advances `pc`, and the step reports the word it carries. -/
theorem unsupportedWordIsSkippedWithDiagnostic : Obligations.UnsupportedWordIsSkippedWithDiagnostic := by
  refine ⟨fun op s => ⟨s.advance, rfl, rfl, s.jump_sameExcept _⟩, fun s op hrun hfetch hdecode => ?_⟩
  have hexec : exec (decode s.cfg.extCls op) s = .next s.advance := by
    rw [hdecode]
    rfl
  refine ⟨s.advance, ?_, rfl, hrun, s.jump_sameExcept _⟩
  rw [stepFull_of_exec hrun hfetch hexec, hdecode, execResult_of_running (t := s.advance) hrun]
  rfl

/-- Settles O55. -/
theorem buzzerFollowsSoundTimer : Obligations.BuzzerFollowsSoundTimer :=
  fun s => ⟨buzzer s, rfl, decide_eq_true_iff⟩

/-- Settles O56: an argument is the number of a key or a pixel, or it is reported. -/
theorem keyAndPixelAccessorsCheckTheirRange : Obligations.KeyAndPixelAccessorsCheckTheirRange := by
  refine ⟨fun k pressed s => ⟨_, setKey_of_key k pressed s, fun j => ?written, s.setKeys_sameExcept _⟩,
    fun k pressed s h => setKey_out_of_range h pressed s,
    fun x y s => congrArg (Prod.mk s) (getPixel_of_pixel x y s),
    fun x y s h => congrArg (Prod.mk s) (getPixel_out_of_range h s)⟩
  case written =>
    simp only [Fin.getElem_fin, Vector.getElem_set, Fin.ext_iff, eq_comm (a := k.val)]

/-- Settles O58, by whether the image fits. -/
theorem oversizedImageIsLoadError : Obligations.OversizedImageIsLoadError := by
  intro image s
  by_cases h : maxImage < image.length
  · have hload : callHost (.load image) s = (s, .loadError image.length) := load_too_long h s
    rw [hload]
    exact ⟨iff_of_true rfl h, fun _ => rfl⟩
  · have hload : callHost (.load image) s = (loadImage image s, .ok) := load_fits h s
    rw [hload]
    exact ⟨iff_of_false nofun h, fun hlong => absurd hlong h⟩

end Sys2Proof.Machine
end

section
/-! SUPPORT. Reset, the loader, the font and boot (70_reset_and_hazards.md): what a block the host writes leaves in
memory, first for any block, then for the font and for a program image; then the obligations of the family. -/

namespace Sys2Proof.Machine

/-! ### A block written by the host (R134, R135) -/

/-- Byte `k` of the block is read back `k` above its base. -/
theorem Memory.peek_pokeAll_inside {m : Memory} (hm : m.wf = true) {a : Nat} {bs : List Byte}
    (hfit : a + bs.length ≤ memSize) {k : Nat} (hk : k < bs.length) : (m.pokeAll a bs).peek (a + k) = bs[k] := by
  have hin : a ≤ a + k ∧ a + k < a + bs.length := by omega
  rw [(Memory.pokeAll_spec hm hfit).2, dif_pos hin]
  simp only [Nat.add_sub_cancel_left]

/-- Below and past the block memory reads as before. -/
theorem Memory.peek_pokeAll_outside {m : Memory} (hm : m.wf = true) {a : Nat} {bs : List Byte}
    (hfit : a + bs.length ≤ memSize) {c : Nat} (hc : c < a ∨ a + bs.length ≤ c) :
    (m.pokeAll a bs).peek c = m.peek c := by
  rw [(Memory.pokeAll_spec hm hfit).2, dif_neg (by omega)]

/-! ### The font (R135) -/

theorem glyphByte_lt (d : Fin 16) (r : Fin 5) : 5 * d.val + r.val < fontBytes.length := by
  rw [fontBytes_length]
  omega

/-- The bytes the host writes are those of part C, glyph after glyph. -/
theorem fontBytes_glyph : ∀ (d : Fin 16) (r : Fin 5),
    fontBytes[5 * d.val + r.val]'(glyphByte_lt d r) = partCGlyphs[d][r] := by
  decide

theorem installFont_sameExcept (s : State) : SameExcept [.mem] s (installFont s) := by
  obtain ⟨m, h, -⟩ := installFont_mem_only s
  exact h ▸ sameExcept_mem s m

theorem installFont_mem_wf {s : State} (hm : s.mem.wf = true) : (installFont s).mem.wf = true := by
  obtain ⟨m, h, hwf⟩ := installFont_mem_only s
  exact h ▸ hwf hm

theorem installFont_mem_installed {s : State} (hfont : s.cfg.fontInstalled = true) :
    (installFont s).mem = s.mem.pokeAll fontBase fontBytes := by
  rw [installFont_installed hfont]

section
variable {s : State} (hfont : s.cfg.fontInstalled = true) (hm : s.mem.wf = true)
include hfont hm

theorem installFont_peek_glyph (d : Fin 16) (r : Fin 5) :
    (installFont s).mem.peek (0x050 + 5 * d.val + r.val) = partCGlyphs[d][r] := by
  have hbyte := Memory.peek_pokeAll_inside hm font_fits (glyphByte_lt d r)
  rw [fontBytes_glyph, ← Nat.add_assoc] at hbyte
  rw [installFont_mem_installed hfont]
  exact hbyte

theorem installFont_peek_outside {a : Nat} (ha : a < 0x050 ∨ 0x09F < a) :
    (installFont s).mem.peek a = s.mem.peek a := by
  rw [installFont_mem_installed hfont]
  exact Memory.peek_pokeAll_outside hm font_fits ha

end

/-! ### A program image (R134) -/

theorem loadImage_sameExcept (image : List Byte) (s : State) : SameExcept [.mem] s (loadImage image s) :=
  sameExcept_mem s _

section
variable {image : List Byte} (hlen : image.length ≤ maxImage) {s : State} (hm : s.mem.wf = true)
include hlen hm

theorem loadImage_peek_image {k : Nat} (hk : k < image.length) :
    (loadImage image s).mem.peek (0x200 + k) = image[k] :=
  Memory.peek_pokeAll_inside hm (image_fits hlen) hk

theorem loadImage_peek_outside {a : Nat} (ha : a < 0x200 ∨ 0x200 + image.length ≤ a) :
    (loadImage image s).mem.peek a = s.mem.peek a :=
  Memory.peek_pokeAll_outside hm (image_fits hlen) ha

end

/-! ### Reset and boot (R131, R133, R136) -/

/-- `reset` gives the constructed machine, apart from the count of random draws (log entry 17). -/
theorem hardReset_eq_powerOn (s : State) : hardReset s = { powerOn s.cfg with draws := s.draws } := rfl

/-- Of the state it is called in, `reset` reads the model's own two fields alone. -/
theorem hardReset_congr {s s' : State} (hcfg : s'.cfg = s.cfg) (hdraws : s'.draws = s.draws) :
    hardReset s' = hardReset s := by
  rw [hardReset, hcfg, hdraws, hardReset]

/-- Boot with an image that fits ends in the state the loader leaves. -/
theorem boot_fits (cfg : Config) {image : List Byte} (hlen : image.length ≤ maxImage) :
    boot cfg image = (loadImage image (installFont (powerOn cfg)), .ok) :=
  load_fits (Nat.not_lt.2 hlen) _

theorem boot_keeps_inv (cfg : Config) (image : List Byte) : (boot cfg image).1.Inv :=
  runHost_keeps_inv [.installFont, .load image] (inv_powerOn cfg)

/-- Boot writes memory alone: all else is as in the constructed machine. -/
theorem boot_sameExcept (cfg : Config) (image : List Byte) : SameExcept [.mem] (powerOn cfg) (boot cfg image).1 := by
  obtain ⟨m, h, -⟩ := load_mem_only image (installFont (powerOn cfg))
  exact (installFont_sameExcept _).trans (h ▸ sameExcept_mem _ m)

/-! ### The obligations -/

/-- Settles O57, by whether the image fits. -/
theorem loadCopiesTheImageOrRefusesIt : Obligations.LoadCopiesTheImageOrRefusesIt :=
  ⟨fun image s hlen hm => ⟨loadImage image s, load_fits (Nat.not_lt.2 hlen) s, fun _ => loadImage_peek_image hlen hm,
      fun _ => loadImage_peek_outside hlen hm, loadImage_sameExcept image s⟩,
    fun _ s hlong => load_too_long hlong s⟩

/-- Settles O59: the image lies past the font, so the loader leaves what stands below 0x200. -/
theorem bootPlacesFontAndImage : Obligations.BootPlacesFontAndImage := by
  intro cfg image hlen
  have hwf : (installFont (powerOn cfg)).mem.wf = true := installFont_mem_wf (inv_powerOn cfg).mem_wf
  have hinv := boot_keeps_inv cfg image
  have hframe := boot_sameExcept cfg image
  have hboot := boot_fits cfg hlen
  rw [hboot] at hinv hframe
  have hbelow {a : Nat} (ha : a < 0x200) :
      (loadImage image (installFont (powerOn cfg))).mem.peek a = (installFont (powerOn cfg)).mem.peek a :=
    loadImage_peek_outside hlen hwf (.inl ha)
  refine ⟨_, hboot, hframe.halted (by decide), hframe.pc (by decide), hinv,
    fun _ => loadImage_peek_image hlen hwf, fun hfont d r => ?glyphs, fun hfont a ha => ?zeros⟩
  case glyphs =>
    rw [hbelow (by omega)]
    exact installFont_peek_glyph hfont (inv_powerOn cfg).mem_wf d r
  case zeros =>
    rw [hbelow ha, installFont_not_installed hfont]
    rfl

/-- Settles O60: after a reset memory is in canonical form and reads as zero, so the last clause is the first one. -/
theorem installFontWritesTheGlyphs : Obligations.InstallFontWritesTheGlyphs := by
  refine ⟨fun s hfont hm => ⟨installFont s, rfl, installFont_peek_glyph hfont hm,
      fun _ => installFont_peek_outside hfont hm, installFont_sameExcept s⟩,
    fun s hfont => congrArg (·, HostResult.ok) (installFont_not_installed hfont), fun s hfont => ?afterReset⟩
  case afterReset =>
    have hm : (hardReset s).mem.wf = true := (inv_hardReset s).mem_wf
    exact ⟨installFont_peek_glyph (s := hardReset s) hfont hm,
      fun _ => installFont_peek_outside (s := hardReset s) hfont hm⟩

/-- Settles O18: a reset keeps the two fields that the next one reads. -/
theorem resetRestoresTheConstructedMachine : Obligations.ResetRestoresTheConstructedMachine := fun s =>
  ⟨congrArg (·, HostResult.ok) (hardReset_eq_powerOn s),
    congrArg (·, HostResult.ok) (hardReset_congr (hardReset_cfg s) (hardReset_draws s)),
    fun _ hcfg hdraws => congrArg (·, HostResult.ok) (hardReset_congr hcfg hdraws)⟩

end Sys2Proof.Machine
end
